-- ==== Sys2Proof/Word.lean ====
section
/-!
DEFINITION. Bytes, words, blocks and round keys; the reject codes, the key lengths, a command on the port
and its response. Follows 00_scope.md R6, R7, R11, 30_encoding.md R80, R89, 60_exceptions.md R230.
-/

namespace Sys2Proof

/-- A byte; also a field element (00_scope.md R11, 40_gf_arithmetic.md R110). -/
abbrev Byte := BitVec 8

/-- A 32-bit word: four bytes, the most significant first (00_scope.md R6, 20_memory.md R54). -/
abbrev Word := BitVec 32

/-- A 4 by 4 byte matrix: row `r`, column `c` is entry `c` of entry `r` (10_state.md R21). -/
abbrev Block := Vector (Vector Byte 4) 4

/-- Four consecutive words of the key schedule (10_state.md R26). -/
abbrev RoundKey := Vector Word 4

/-- The reject codes, in the order of their numbers 0 to 7 (60_exceptions.md R230). Codes 8 to 15 are never
produced (93_implementation_defined.md U14), so the type has exactly these eight values. -/
inductive RejectCode where
  | ok
  | eIllegal
  | eKeyLen
  | eLen
  | eNoState
  | eNoKey
  | eNoSched
  | eRange
deriving DecidableEq, Repr

/-- The key length `NK`: no key, or 4, 6 or 8 words (10_state.md R24). -/
inductive KeyLen where
  | noKey
  | nk4
  | nk6
  | nk8
deriving DecidableEq, Repr

/-- A command on the port: the word, and as many payload bytes as its bits 7:0 say, the first byte on the port
first (30_encoding.md R80). A declared length that differs from the number of bytes transferred cannot be
expressed (R80), so `len` is part of the data. -/
structure Command where
  cmd : Word
  pl : List Byte
  len : pl.length = (cmd.extractLsb' 0 8).toNat
deriving DecidableEq, Repr

/-- The response to one command (30_encoding.md R89): the code, the 32-bit scalar, and 0 or 16 data bytes, the
first byte on the port first. -/
structure Response where
  rc : RejectCode
  val : Word
  data : List Byte
deriving DecidableEq, Repr

end Sys2Proof
end

