-- ==== Sys2Proof/Config.lean ====
section
/-!
DEFINITION. What the spec leaves open: the contents it calls unspecified (93_implementation_defined.md U3 to U7).
They are constants without a body, so nothing can be proved of what they are. Log entry 2.
-/

namespace Sys2Proof

/-- DESIGN CHOICE (log entry 2, safe): the word that element `i` of a word store holds when its contents become
unspecified for the `n`-th time; elements 0 to 7 are `KW`, elements 8 to 67 are `W`. -/
opaque Config.freeWord (n i : Nat) : Word

/-- DESIGN CHOICE (log entry 2, safe): the byte at row `r`, column `c` of `ST` when its contents become
unspecified for the `n`-th time. -/
opaque Config.freeByte (n r c : Nat) : Byte

end Sys2Proof
end

