-- ==== Sys2Proof/Syntax.lean ====
section
/-!
DEFINITION. The commands of the engine, one constructor per row of the opcode table (30_encoding.md R84).
-/

namespace Sys2Proof

/-- A decoded command with its operands (30_encoding.md R82, R83). A payload is kept whatever its length, since a
wrong length is the named command with a malformed payload (R87), which its meaning rejects. -/
inductive Instr where
  /-- `GFADD a, b` (40_gf_arithmetic.md R121). -/
  | gfadd (a b : Byte)
  /-- `GFMUL a, b` (40_gf_arithmetic.md R122). -/
  | gfmul (a b : Byte)
  /-- `SBOX a` (41_sbox.md R134). -/
  | sbox (a : Byte)
  /-- `LDST p` (42_state_ops.md R141). -/
  | ldst (p : List Byte)
  /-- `RDST` (42_state_ops.md R148). -/
  | rdst
  /-- `SUBB` (42_state_ops.md R149). -/
  | subb
  /-- `SHROW` (42_state_ops.md R150). -/
  | shrow
  /-- `MIXC` (42_state_ops.md R151). -/
  | mixc
  /-- `ARK k` (42_state_ops.md R152). -/
  | ark (k : Byte)
  /-- `LDKEY nk, q` (43_key_schedule.md R180). -/
  | ldkey (nk : Byte) (q : List Byte)
  /-- `KEXP` (43_key_schedule.md R181). -/
  | kexp
  /-- `RDRK k` (43_key_schedule.md R182). -/
  | rdrk (k : Byte)
  /-- `ENC` (44_block_encrypt.md R205). -/
  | enc
  /-- `RDSTAT` (45_system.md R220). -/
  | rdstat
deriving DecidableEq, Repr

end Sys2Proof
end

