-- ==== Sys2Proof/WellFormed.lean ====
section
/-!
DEFINITION. Which commands are well formed: the payload lengths and the key length that an accepted command word
has (30_encoding.md R82, R84). A round-key index is any byte; its range depends on the engine state (R85 step 8).
-/

namespace Sys2Proof

/-- The command's operands are those of an accepted form (30_encoding.md R82): 16 payload bytes for `LDST`; `nk`
one of 4, 6, 8 and 4 `nk` payload bytes for `LDKEY`. -/
def Instr.wf : Instr → Bool
  | .gfadd _ _ => true
  | .gfmul _ _ => true
  | .sbox _ => true
  | .ldst p => p.length == 16
  | .rdst => true
  | .subb => true
  | .shrow => true
  | .mixc => true
  | .ark _ => true
  | .ldkey nk q => (nk == 4 || nk == 6 || nk == 8) && q.length == 4 * nk.toNat
  | .kexp => true
  | .rdrk _ => true
  | .enc => true
  | .rdstat => true

end Sys2Proof
end

