-- ==== Sys2Proof/Decode.lean ====
section
/-!
DEFINITION. The command word's fields, the decoder and the encoder (30_encoding.md R80 to R88), and the
pseudo-instructions (R91).
-/

namespace Sys2Proof

/-! ### Fields (30_encoding.md R81) -/

/-- `OP` = `CMD[31:24]` (30_encoding.md R81). -/
def opField (w : Word) : Byte := w.extractLsb' 24 8

/-- `A` = `CMD[23:16]` (30_encoding.md R81). -/
def aField (w : Word) : Byte := w.extractLsb' 16 8

/-- `B` = `CMD[15:8]` (30_encoding.md R81). -/
def bField (w : Word) : Byte := w.extractLsb' 8 8

/-- `LEN` = `CMD[7:0]` (30_encoding.md R81). -/
def lenField (w : Word) : Byte := w.extractLsb' 0 8

/-- `CMD = OP·2^24 + A·2^16 + B·2^8 + LEN` (30_encoding.md R81). -/
def cmdWord (op a b len : Byte) : Word := op ++ a ++ b ++ len

/-! ### The decoder -/

/-- Format `Z`: `A`, `B` must be 0 (`E_ILLEGAL`), then `LEN` must be 0 (`E_LEN`); 30_encoding.md R82, R85. -/
def decodeZ (c : Command) (i : Instr) : Except RejectCode Instr :=
  if aField c.cmd ≠ 0#8 ∨ bField c.cmd ≠ 0#8 then .error .eIllegal
  else if lenField c.cmd ≠ 0#8 then .error .eLen
  else .ok i

/-- Format `A`: `B` must be 0 (`E_ILLEGAL`), then `LEN` must be 0 (`E_LEN`); 30_encoding.md R82, R85. -/
def decodeA (c : Command) (i : Byte → Instr) : Except RejectCode Instr :=
  if bField c.cmd ≠ 0#8 then .error .eIllegal
  else if lenField c.cmd ≠ 0#8 then .error .eLen
  else .ok (i (aField c.cmd))

/-- Format `AB`: `LEN` must be 0 (`E_LEN`); 30_encoding.md R82, R85. -/
def decodeAB (c : Command) (i : Byte → Byte → Instr) : Except RejectCode Instr :=
  if lenField c.cmd ≠ 0#8 then .error .eLen
  else .ok (i (aField c.cmd) (bField c.cmd))

/-- Format `P`: `A`, `B` must be 0 (`E_ILLEGAL`). The payload's length is checked by the command's meaning, the
next check in the order of 30_encoding.md R85 (log entry 6). -/
def decodeP (c : Command) (i : List Byte → Instr) : Except RejectCode Instr :=
  if aField c.cmd ≠ 0#8 ∨ bField c.cmd ≠ 0#8 then .error .eIllegal
  else .ok (i c.pl)

/-- Format `AP`: `B` must be 0 (`E_ILLEGAL`). The key length and the payload's length are checked by the
command's meaning, the next checks in the order of 30_encoding.md R85 (log entry 6). -/
def decodeAP (c : Command) (i : Byte → List Byte → Instr) : Except RejectCode Instr :=
  if bField c.cmd ≠ 0#8 then .error .eIllegal
  else .ok (i (aField c.cmd) c.pl)

/-- The opcode map (30_encoding.md R84); every other `OP` is rejected with `E_ILLEGAL` (R86). -/
def decode (c : Command) : Except RejectCode Instr :=
  let op := opField c.cmd
  if op = 0x10#8 then decodeAB c .gfadd
  else if op = 0x11#8 then decodeAB c .gfmul
  else if op = 0x20#8 then decodeA c .sbox
  else if op = 0x30#8 then decodeP c .ldst
  else if op = 0x31#8 then decodeZ c .rdst
  else if op = 0x32#8 then decodeZ c .subb
  else if op = 0x33#8 then decodeZ c .shrow
  else if op = 0x34#8 then decodeZ c .mixc
  else if op = 0x35#8 then decodeA c .ark
  else if op = 0x40#8 then decodeAP c .ldkey
  else if op = 0x41#8 then decodeZ c .kexp
  else if op = 0x42#8 then decodeA c .rdrk
  else if op = 0x50#8 then decodeZ c .enc
  else if op = 0x60#8 then decodeZ c .rdstat
  else .error .eIllegal

/-! ### The encoder -/

/-- The payload of a command (30_encoding.md R82). -/
def encodePayload : Instr → List Byte
  | .gfadd _ _ => []
  | .gfmul _ _ => []
  | .sbox _ => []
  | .ldst p => p
  | .rdst => []
  | .subb => []
  | .shrow => []
  | .mixc => []
  | .ark _ => []
  | .ldkey _ q => q
  | .kexp => []
  | .rdrk _ => []
  | .enc => []
  | .rdstat => []

/-- The command word: the pattern column of 30_encoding.md R84, with `LEN` the payload's length (R80, R90). -/
def encodeWord : Instr → Word
  | .gfadd a b => cmdWord 0x10#8 a b 0
  | .gfmul a b => cmdWord 0x11#8 a b 0
  | .sbox a => cmdWord 0x20#8 a 0 0
  | .ldst p => cmdWord 0x30#8 0 0 (BitVec.ofNat 8 p.length)
  | .rdst => cmdWord 0x31#8 0 0 0
  | .subb => cmdWord 0x32#8 0 0 0
  | .shrow => cmdWord 0x33#8 0 0 0
  | .mixc => cmdWord 0x34#8 0 0 0
  | .ark k => cmdWord 0x35#8 k 0 0
  | .ldkey nk q => cmdWord 0x40#8 nk 0 (BitVec.ofNat 8 q.length)
  | .kexp => cmdWord 0x41#8 0 0 0
  | .rdrk k => cmdWord 0x42#8 k 0 0
  | .enc => cmdWord 0x50#8 0 0 0
  | .rdstat => cmdWord 0x60#8 0 0 0

/-- The word and the payload of a command. -/
def encode (i : Instr) : Word × List Byte := (encodeWord i, encodePayload i)

/-- The port's transfer of one command: the word, then exactly `LEN` bytes of `bytes`, the first first
(30_encoding.md R80). The encoder gives exactly that many for a payload of at most 255 bytes; a missing byte is 0. -/
def transfer (w : Word) (bytes : List Byte) : Command where
  cmd := w
  pl := List.ofFn fun j : Fin (w.extractLsb' 0 8).toNat => bytes.getD j.val 0
  len := List.length_ofFn

/-- A command as the host puts it on the port. -/
def encodeCommand (i : Instr) : Command := transfer (encode i).1 (encode i).2

/-! ### Words numbered as the opcode table numbers them -/

/-- The command whose bits are the low `nbits` of `w`: bits 31:0 the command word, payload byte `j` in bits
`32 + 8j + 7` down to `32 + 8j` (log entry 5). -/
def commandOfTableWord (nbits w : Nat) : Command :=
  transfer (BitVec.ofNat 32 (w % 2 ^ nbits))
    (List.ofFn fun j : Fin 255 => BitVec.ofNat 8 ((w % 2 ^ nbits) >>> (32 + 8 * j.val)))

/-- The command the decoder reads from an instruction whose bits are `w`, `none` where it rejects. -/
def decodeTableWord (nbits w : Nat) : Option Instr :=
  match decode (commandOfTableWord nbits w) with
  | .ok i => some i
  | .error _ => none

/-! ### Pseudo-instructions (30_encoding.md R91): each expands to commands and has no encoding of its own -/

/-- `GFSUB a, b` (30_encoding.md R91). -/
def pseudoGfsub (a b : Byte) : List Instr := [.gfadd a b]

/-- `LDKEY128 q` (30_encoding.md R91). -/
def pseudoLdkey128 (q : List Byte) : List Instr := [.ldkey 4 q]

/-- `LDKEY192 q` (30_encoding.md R91). -/
def pseudoLdkey192 (q : List Byte) : List Instr := [.ldkey 6 q]

/-- `LDKEY256 q` (30_encoding.md R91). -/
def pseudoLdkey256 (q : List Byte) : List Instr := [.ldkey 8 q]

/-- `ENCRYPT nk, q, p` (30_encoding.md R91). -/
def pseudoEncrypt (nk : Byte) (q p : List Byte) : List Instr := [.ldkey nk q, .ldst p, .enc, .rdst]

end Sys2Proof
end

