-- ==== Sys2Proof/Machine/State.lean ====
section
/-!
DEFINITION. The state: the engine's record of 10_state.md R20, the host's events still to come, the responses
delivered so far, and the counter of the free values. Plain data.
-/

namespace Sys2Proof.Machine

/-- The whole engine state (10_state.md R20): exactly these fields. -/
structure EngineState where
  /-- The block being transformed (10_state.md R21). -/
  ST : Block
  /-- `ST` holds a block (10_state.md R22). -/
  SV : Bool
  /-- The key, in `KW[0..NK-1]` (10_state.md R23). -/
  KW : Vector Word 8
  /-- The key length in words (10_state.md R24). -/
  NK : KeyLen
  /-- `KW`, `NK` hold a key (10_state.md R25). -/
  KV : Bool
  /-- The expanded key schedule, in `W[0..4·(NK+7)-1]` (10_state.md R26). -/
  W : Vector Word 60
  /-- `W` holds the schedule of the current key (10_state.md R27). -/
  WV : Bool
  /-- The reject code of the most recent command other than an accepted `RDSTAT` (10_state.md R29). -/
  ERR : RejectCode
deriving DecidableEq, Repr

/-- What the host does: it issues a command, or asserts reset between two commands (00_scope.md R9,
70_reset_and_hazards.md R260). -/
inductive Event where
  | reset
  | command (c : Command)
deriving DecidableEq, Repr

/-- The engine and the world it answers to. -/
structure State where
  /-- The engine (10_state.md R20). -/
  engine : EngineState
  /-- The host's events still to come, the first one first (00_scope.md R9, R10; log entry 3). -/
  input : List Event
  /-- The responses delivered so far, the newest first: what a run's observer sees (00_scope.md R10). The engine
  keeps no copy (10_state.md R32); no meaning reads this list (log entry 4). -/
  responses : List Response
  /-- How often contents have become unspecified: the index of the next free value (log entry 2). -/
  freeCtr : Nat
deriving DecidableEq, Repr

/-- The reasons the machine stops: none. Every command terminates with a response (70_reset_and_hazards.md R272),
and the treatment `stuck` is never used (93_implementation_defined.md Part 1). -/
inductive Fault
deriving DecidableEq, Repr

/-- The reasons an instruction has no meaning. -/
inductive Refusal where
  /-- Raised by `exec` for an instruction that has no meaning yet. Safe: the run stops. No arm raises it. -/
  | notModelled (mnemonic : String)
deriving DecidableEq, Repr

/-- The engine right after reset (10_state.md R35): flags, `NK` and `ERR` as the spec gives them. DESIGN CHOICE
(log entry 1, unsafe): the spec leaves `ST`, `KW`, `W` unspecified; the model names zero. -/
def EngineState.reset : EngineState where
  ST := Vector.replicate 4 (Vector.replicate 4 0)
  SV := false
  KW := Vector.replicate 8 0
  NK := .noKey
  KV := false
  W := Vector.replicate 60 0
  WV := false
  ERR := .ok

/-- The machine right after reset: the engine of 10_state.md R35, no event issued and no response delivered
(DESIGN CHOICE, log entries 3 and 4), no free value used (DESIGN CHOICE, log entry 2). -/
def State.reset : State where
  engine := EngineState.reset
  input := []
  responses := []
  freeCtr := 0

end Sys2Proof.Machine
end

