-- ==== Sys2Proof/Machine/Operands.lean ====
section
/-!
DEFINITION. How bytes map to words, blocks, keys and round keys (20_memory.md R53 to R58), and the element
accessors of the storage spaces.
-/

namespace Sys2Proof.Machine

/-! ### Bytes and words -/

/-- Byte `j` of a word, byte 0 the most significant: `w[31-8j : 24-8j]` (20_memory.md R54). -/
def byteOf (w : Word) (j : Fin 4) : Byte := w.extractLsb' (24 - 8 * j.val) 8

/-- The word made of four bytes in order, the first most significant (20_memory.md R54). -/
def wordOfBytes (b0 b1 b2 b3 : Byte) : Word := b0 ++ b1 ++ b2 ++ b3

/-- Byte `j` of a byte string. Every caller's `j` is in range once the length is checked (20_memory.md R61). -/
def byteAt (p : List Byte) (j : Nat) : Byte := p.getD j 0

/-! ### Blocks (20_memory.md R55, R56; 10_state.md R21) -/

/-- The block whose byte at row `r`, column `c` is `f r c`. -/
def mkBlock (f : Fin 4 → Fin 4 → Byte) : Block :=
  Vector.ofFn fun r => Vector.ofFn fun c => f r c

/-- The byte `S[r][c]`. -/
def cell (S : Block) (r c : Fin 4) : Byte := (S[r.val])[c.val]

/-- Loading a block: `ST[r][c] = p[r + 4·c]` (20_memory.md R55). -/
def blockOfBytes (p : List Byte) : Block := mkBlock fun r c => byteAt p (r.val + 4 * c.val)

/-- Byte view `SB[k] = ST[k mod 4][k div 4]` (10_state.md R21). -/
def blockByte (S : Block) (k : Fin 16) : Byte :=
  cell S ⟨k.val % 4, Nat.mod_lt _ (by decide)⟩ ⟨k.val / 4, by omega⟩

/-- Reading a block out: `p[k] = ST[k mod 4][k div 4]` for `k` = 0..15 (20_memory.md R55). -/
def bytesOfBlock (S : Block) : List Byte := List.ofFn (blockByte S)

/-- Column view `SC[c]`: row 0 in bits 31:24 (10_state.md R21, 20_memory.md R56). -/
def column (S : Block) (c : Fin 4) : Word :=
  wordOfBytes (cell S 0 c) (cell S 1 c) (cell S 2 c) (cell S 3 c)

/-! ### Keys and round keys (20_memory.md R57, R58; 10_state.md R24, R26) -/

/-- `NK` as a number of words (10_state.md R24). -/
def nkWords : KeyLen → Nat
  | .noKey => 0
  | .nk4 => 4
  | .nk6 => 6
  | .nk8 => 8

/-- The key length that an `A` operand names; `none` outside {4, 6, 8} (30_encoding.md R86). -/
def keyLenOf (nk : Byte) : Option KeyLen :=
  if nk = 4#8 then some .nk4
  else if nk = 6#8 then some .nk6
  else if nk = 8#8 then some .nk8
  else none

/-- `KW[j] = q[4j] ‖ q[4j+1] ‖ q[4j+2] ‖ q[4j+3]` (20_memory.md R57). -/
def keyWord (q : List Byte) (j : Nat) : Word :=
  wordOfBytes (byteAt q (4 * j)) (byteAt q (4 * j + 1)) (byteAt q (4 * j + 2)) (byteAt q (4 * j + 3))

/-- The number of words of the schedule of an `Nk`-word key (43_key_schedule.md R171). -/
def scheduleLength (Nk : Nat) : Nat := 4 * (Nk + 7)

/-- Element `i` of the store `W`. Every index a command reads is below 60 once its range check has passed
(20_memory.md R52); the other branch is never reached. -/
def schedWord (W : Vector Word 60) (i : Nat) : Word := if h : i < 60 then W[i] else 0

/-- Round key `k` of the store: `(W[4k], W[4k+1], W[4k+2], W[4k+3])` (10_state.md R26). -/
def storedRoundKey (W : Vector Word 60) (k : Nat) : RoundKey :=
  Vector.ofFn fun c => schedWord W (4 * k + c.val)

/-- Byte `n` of a round key: byte `n mod 4` of its word `n div 4` (20_memory.md R58). -/
def roundKeyByte (K : RoundKey) (n : Fin 16) : Byte :=
  byteOf (K[n.val / 4]'(by omega)) ⟨n.val % 4, Nat.mod_lt _ (by decide)⟩

/-- A round key read out: `d[4c + j]` = byte `j` of its word `c` (20_memory.md R58). -/
def bytesOfRoundKey (K : RoundKey) : List Byte := List.ofFn (roundKeyByte K)

end Sys2Proof.Machine
end

