-- ==== Sys2Proof/Machine/Flags.lean ====
section
/-!
DEFINITION. The reject codes' numbers, the status register and the write of `ERR` (60_exceptions.md R230,
10_state.md R29, R30). The engine has no condition codes (R30).
-/

namespace Sys2Proof.Machine

/-- The number of a reject code, a 4-bit field (60_exceptions.md R230). -/
def rcBits : RejectCode → BitVec 4
  | .ok => 0
  | .eIllegal => 1
  | .eKeyLen => 2
  | .eLen => 3
  | .eNoState => 4
  | .eNoKey => 5
  | .eNoSched => 6
  | .eRange => 7

/-- `NK` as the 4-bit field of `STATUS` (10_state.md R30). -/
def nkBits (nk : KeyLen) : BitVec 4 := BitVec.ofNat 4 (nkWords nk)

/-- `STATUS = zext_32( ERR ‖ NK ‖ 0 ‖ WV ‖ KV ‖ SV )` (10_state.md R30). -/
def status (e : EngineState) : Word :=
  (rcBits e.ERR ++ nkBits e.NK ++ (0 : BitVec 1) ++ BitVec.ofBool e.WV ++ BitVec.ofBool e.KV
    ++ BitVec.ofBool e.SV).setWidth 32

/-- `ERR <- code` (10_state.md R29). -/
def setErr (code : RejectCode) (s : State) : State := { s with engine := { s.engine with ERR := code } }

end Sys2Proof.Machine
end

