-- ==== Sys2Proof/Machine/Ops.lean ====
section
/-!
DEFINITION. The named operations every meaning is made of: the response, acceptance, rejection (the engine's only
exception, 60_exceptions.md R231), the guards on the valid flags (30_encoding.md R85 steps 5 to 8), the writes of the
three stores, the reset event (70_reset_and_hazards.md R261) and the port.
-/

namespace Sys2Proof.Machine

/-- What a meaning or a step answers. -/
abbrev Result := Host.Outcome State Fault Refusal

/-! ### Responses, acceptance, rejection -/

/-- The response goes out on the port (30_encoding.md R89). -/
def respond (r : Response) (s : State) : State := { s with responses := r :: s.responses }

/-- A command is accepted: `ERR <- OK`, and the response carries `val` and `data` (10_state.md R29, 30_encoding.md
R89, 00_scope.md R17). -/
def accept (val : Word) (data : List Byte) (s : State) : Result :=
  .next (respond ⟨.ok, val, data⟩ (setErr .ok s))

/-- An accepted `RDSTAT`: the only accepted command that does not write `ERR` (10_state.md R29). -/
def acceptQuiet (val : Word) (s : State) : Result :=
  .next (respond ⟨.ok, val, []⟩ s)

/-- Taking the engine's only exception, a rejection (60_exceptions.md R231): `ERR <- code` is the only state
written, the response is `(code, 0, empty)`, and the engine is ready for the next command. There is nothing to
return from (R235). -/
def reject (code : RejectCode) (s : State) : Result :=
  .next (respond ⟨code, 0, []⟩ (setErr code s))

/-! ### Guards on the engine state (30_encoding.md R85 steps 5 to 8) -/

/-- A command that reads `ST` (step 5). -/
def requireState (s : State) (k : Result) : Result := if s.engine.SV then k else reject .eNoState s

/-- A command that reads `KW` (step 6). -/
def requireKey (s : State) (k : Result) : Result := if s.engine.KV then k else reject .eNoKey s

/-- A command that reads `W` as an operand (step 7). -/
def requireSchedule (s : State) (k : Result) : Result := if s.engine.WV then k else reject .eNoSched s

/-- A command with a round-key index: `k ≤ NK + 6` (step 8). -/
def requireRange (idx : Byte) (s : State) (k : Result) : Result :=
  if idx.toNat ≤ nkWords s.engine.NK + 6 then k else reject .eRange s

/-! ### Writes of the stores -/

/-- `ST <- S` as a whole (10_state.md R21). -/
def setBlock (S : Block) (s : State) : State := { s with engine := { s.engine with ST := S } }

/-- `ST <- S; SV <- 1` (42_state_ops.md R141). -/
def loadBlock (S : Block) (s : State) : State := { s with engine := { s.engine with ST := S, SV := true } }

/-- The key store after `LDKEY`: the words `0..nk-1` from the key bytes, the words above unspecified (43_key_schedule.md
R180; free value number `n`, log entry 2). -/
@[irreducible] def keyStore (nk : KeyLen) (q : List Byte) (n : Nat) : Vector Word 8 :=
  Vector.ofFn fun j => if j.val < nkWords nk then keyWord q j.val else Config.freeWord n j.val

/-- The schedule store that holds the words `w` from index 0; the words above are unspecified (43_key_schedule.md
R181; free value number `n`, log entry 2). -/
@[irreducible] def scheduleStore (w : List Word) (n : Nat) : Vector Word 60 :=
  Vector.ofFn fun i => w.getD i.val (Config.freeWord n (8 + i.val))

/-- A key store of unspecified contents (70_reset_and_hazards.md R261; free value number `n`). -/
@[irreducible] def freeKeyStore (n : Nat) : Vector Word 8 := Vector.ofFn fun j => Config.freeWord n j.val

/-- A schedule store of unspecified contents (10_state.md R34; free value number `n`). -/
@[irreducible] def freeScheduleStore (n : Nat) : Vector Word 60 := Vector.ofFn fun i => Config.freeWord n (8 + i.val)

/-- A block of unspecified contents (70_reset_and_hazards.md R261; free value number `n`). -/
@[irreducible] def freeBlock (n : Nat) : Block := mkBlock fun r c => Config.freeByte n r.val c.val

/-- `KW[0..nk-1]` from the key bytes, `NK <- nk; KV <- 1; WV <- 0` (43_key_schedule.md R180). -/
def loadKey (nk : KeyLen) (q : List Byte) (s : State) : State :=
  { s with
    engine := { s.engine with KW := keyStore nk q s.freeCtr, NK := nk, KV := true, WV := false }
    freeCtr := s.freeCtr + 1 }

/-- `W[0..n-1] <- w` for a schedule `w` of `n` words, `WV <- 1` (43_key_schedule.md R181). -/
def storeSchedule (w : List Word) (s : State) : State :=
  { s with
    engine := { s.engine with W := scheduleStore w s.freeCtr, WV := true }
    freeCtr := s.freeCtr + 1 }

/-- The schedule is discarded: `WV <- 0`, and all of `W` becomes unspecified (44_block_encrypt.md R205). -/
def discardSchedule (s : State) : State :=
  { s with
    engine := { s.engine with W := freeScheduleStore s.freeCtr, WV := false }
    freeCtr := s.freeCtr + 1 }

/-- The reset event (70_reset_and_hazards.md R261): the flags, `NK` and `ERR` to 0; the contents of `ST`, `KW`, `W`
unspecified; no response (R260). -/
def resetEngine (s : State) : State :=
  { s with
    engine := {
      ST := freeBlock s.freeCtr
      SV := false
      KW := freeKeyStore s.freeCtr
      NK := .noKey
      KV := false
      W := freeScheduleStore s.freeCtr
      WV := false
      ERR := .ok }
    freeCtr := s.freeCtr + 1 }

/-! ### The port -/

/-- The host's next event, and the state with that event taken off the port (00_scope.md R9). -/
def takeEvent (s : State) : Option (Event × State) :=
  match s.input with
  | [] => none
  | e :: rest => some (e, { s with input := rest })

/-- The host issues command `c` next: it goes in front of whatever the port still holds. -/
def issue (c : Command) (s : State) : State := { s with input := .command c :: s.input }

end Sys2Proof.Machine
end

