-- ==== Sys2Proof/Machine/Sbox.lean ====
section
/-!
DEFINITION. The substitution table `sbox_lut`, `SubWord`, and the command `SBOX` (41_sbox.md). Log entry 9.
-/

namespace Sys2Proof.Machine

/-- Row `h` = 0 of the table (41_sbox.md R130). -/
def sboxRow0 : Vector Byte 16 :=
  #v[0x63, 0x7c, 0x77, 0x7b, 0xf2, 0x6b, 0x6f, 0xc5,
    0x30, 0x01, 0x67, 0x2b, 0xfe, 0xd7, 0xab, 0x76]

/-- Row `h` = 1 of the table (41_sbox.md R130). -/
def sboxRow1 : Vector Byte 16 :=
  #v[0xca, 0x82, 0xc9, 0x7d, 0xfa, 0x59, 0x47, 0xf0,
    0xad, 0xd4, 0xa2, 0xaf, 0x9c, 0xa4, 0x72, 0xc0]

/-- Row `h` = 2 of the table (41_sbox.md R130). -/
def sboxRow2 : Vector Byte 16 :=
  #v[0xb7, 0xfd, 0x93, 0x26, 0x36, 0x3f, 0xf7, 0xcc,
    0x34, 0xa5, 0xe5, 0xf1, 0x71, 0xd8, 0x31, 0x15]

/-- Row `h` = 3 of the table (41_sbox.md R130). -/
def sboxRow3 : Vector Byte 16 :=
  #v[0x04, 0xc7, 0x23, 0xc3, 0x18, 0x96, 0x05, 0x9a,
    0x07, 0x12, 0x80, 0xe2, 0xeb, 0x27, 0xb2, 0x75]

/-- Row `h` = 4 of the table (41_sbox.md R130). -/
def sboxRow4 : Vector Byte 16 :=
  #v[0x09, 0x83, 0x2c, 0x1a, 0x1b, 0x6e, 0x5a, 0xa0,
    0x52, 0x3b, 0xd6, 0xb3, 0x29, 0xe3, 0x2f, 0x84]

/-- Row `h` = 5 of the table (41_sbox.md R130). -/
def sboxRow5 : Vector Byte 16 :=
  #v[0x53, 0xd1, 0x00, 0xed, 0x20, 0xfc, 0xb1, 0x5b,
    0x6a, 0xcb, 0xbe, 0x39, 0x4a, 0x4c, 0x58, 0xcf]

/-- Row `h` = 6 of the table (41_sbox.md R130). -/
def sboxRow6 : Vector Byte 16 :=
  #v[0xd0, 0xef, 0xaa, 0xfb, 0x43, 0x4d, 0x33, 0x85,
    0x45, 0xf9, 0x02, 0x7f, 0x50, 0x3c, 0x9f, 0xa8]

/-- Row `h` = 7 of the table (41_sbox.md R130). -/
def sboxRow7 : Vector Byte 16 :=
  #v[0x51, 0xa3, 0x40, 0x8f, 0x92, 0x9d, 0x38, 0xf5,
    0xbc, 0xb6, 0xda, 0x21, 0x10, 0xff, 0xf3, 0xd2]

/-- Row `h` = 8 of the table (41_sbox.md R130). -/
def sboxRow8 : Vector Byte 16 :=
  #v[0xcd, 0x0c, 0x13, 0xec, 0x5f, 0x97, 0x44, 0x17,
    0xc4, 0xa7, 0x7e, 0x3d, 0x64, 0x5d, 0x19, 0x73]

/-- Row `h` = 9 of the table (41_sbox.md R130). -/
def sboxRow9 : Vector Byte 16 :=
  #v[0x60, 0x81, 0x4f, 0xdc, 0x22, 0x2a, 0x90, 0x88,
    0x46, 0xee, 0xb8, 0x14, 0xde, 0x5e, 0x0b, 0xdb]

/-- Row `h` = a of the table (41_sbox.md R130). -/
def sboxRowA : Vector Byte 16 :=
  #v[0xe0, 0x32, 0x3a, 0x0a, 0x49, 0x06, 0x24, 0x5c,
    0xc2, 0xd3, 0xac, 0x62, 0x91, 0x95, 0xe4, 0x79]

/-- Row `h` = b of the table (41_sbox.md R130). -/
def sboxRowB : Vector Byte 16 :=
  #v[0xe7, 0xc8, 0x37, 0x6d, 0x8d, 0xd5, 0x4e, 0xa9,
    0x6c, 0x56, 0xf4, 0xea, 0x65, 0x7a, 0xae, 0x08]

/-- Row `h` = c of the table (41_sbox.md R130). -/
def sboxRowC : Vector Byte 16 :=
  #v[0xba, 0x78, 0x25, 0x2e, 0x1c, 0xa6, 0xb4, 0xc6,
    0xe8, 0xdd, 0x74, 0x1f, 0x4b, 0xbd, 0x8b, 0x8a]

/-- Row `h` = d of the table (41_sbox.md R130). -/
def sboxRowD : Vector Byte 16 :=
  #v[0x70, 0x3e, 0xb5, 0x66, 0x48, 0x03, 0xf6, 0x0e,
    0x61, 0x35, 0x57, 0xb9, 0x86, 0xc1, 0x1d, 0x9e]

/-- Row `h` = e of the table (41_sbox.md R130). -/
def sboxRowE : Vector Byte 16 :=
  #v[0xe1, 0xf8, 0x98, 0x11, 0x69, 0xd9, 0x8e, 0x94,
    0x9b, 0x1e, 0x87, 0xe9, 0xce, 0x55, 0x28, 0xdf]

/-- Row `h` = f of the table (41_sbox.md R130). -/
def sboxRowF : Vector Byte 16 :=
  #v[0x8c, 0xa1, 0x89, 0x0d, 0xbf, 0xe6, 0x42, 0x68,
    0x41, 0x99, 0x2d, 0x0f, 0xb0, 0x54, 0xbb, 0x16]

/-- The read-only table `SBOX`, as 41_sbox.md R130 draws it: the entry at row `h`, column `l` is the substitute of
the byte with high nibble `h` and low nibble `l`. -/
def sboxRom : Vector (Vector Byte 16) 16 :=
  #v[sboxRow0, sboxRow1, sboxRow2, sboxRow3, sboxRow4, sboxRow5, sboxRow6, sboxRow7,
    sboxRow8, sboxRow9, sboxRowA, sboxRowB, sboxRowC, sboxRowD, sboxRowE, sboxRowF]

/-- `sub_byte(v) = SBOX[v]`, the index from the byte's two nibbles, which is the direct index
(41_sbox.md R131). -/
def subByte (v : Byte) : Byte := (sboxRom[(v.extractLsb' 4 4).toNat])[(v.extractLsb' 0 4).toNat]

/-- `SubWord(w)`: the substitute of each of the word's four bytes, in place (41_sbox.md R133). -/
def subWord (w : Word) : Word :=
  wordOfBytes (subByte (byteOf w 0)) (subByte (byteOf w 1)) (subByte (byteOf w 2)) (subByte (byteOf w 3))

/-- `SBOX a` (41_sbox.md R134). -/
def execSbox (a : Byte) (s : State) : Result := accept ((subByte a).setWidth 32) [] s

end Sys2Proof.Machine
end

