-- ==== Sys2Proof/Machine/KeySchedule.lean ====
section
/-!
DEFINITION. The key schedule `keysched_expand` and the commands `LDKEY`, `KEXP`, `RDRK` (43_key_schedule.md).
-/

namespace Sys2Proof.Machine

/-! ### Building blocks -/

/-- `RotWord(w)`: the four bytes one position to the left (43_key_schedule.md R170). -/
def rotWord (w : Word) : Word := wordOfBytes (byteOf w 1) (byteOf w 2) (byteOf w 3) (byteOf w 0)

/-- The read-only table `RCON` (43_key_schedule.md R172). -/
def rcon : List Byte := [0x01, 0x02, 0x04, 0x08, 0x10, 0x20, 0x40, 0x80, 0x1B, 0x36]

/-- `RconWord(k) = RCON[k] ‖ 0 ‖ 0 ‖ 0` (43_key_schedule.md R172). An index above 9 is never generated (R173). -/
def rconWord (k : Nat) : Word := wordOfBytes (byteAt rcon k) 0 0 0

/-! ### The expansion (43_key_schedule.md R175) -/

/-- Word `i ≥ Nk` of the schedule from the words `w` before it (43_key_schedule.md R175 step 2). -/
def nextWord (Nk : Nat) (w : List Word) (i : Nat) : Word :=
  let prev := w.getD (i - 1) 0
  let back := w.getD (i - Nk) 0
  if i % Nk = 0 then subWord (rotWord prev) ^^^ rconWord (i / Nk - 1) ^^^ back
  else if Nk = 8 ∧ (i - 4) % 8 = 0 then subWord prev ^^^ back
  else prev ^^^ back

/-- The next `n` words, each appended in increasing index (43_key_schedule.md R175 step 2). -/
def expandLoop (Nk : Nat) : Nat → List Word → List Word
  | 0, w => w
  | n + 1, w => expandLoop Nk n (w ++ [nextWord Nk w w.length])

/-- `KeyExpansion(KW, Nk)`: the words `w[0..4·(Nk+7)-1]`, the first `Nk` of them the key
(43_key_schedule.md R175). -/
def keyExpansion (KW : Vector Word 8) (Nk : Nat) : List Word :=
  expandLoop Nk (scheduleLength Nk - Nk) (KW.toList.take Nk)

/-- Round key `k` of a schedule: `(w[4k], w[4k+1], w[4k+2], w[4k+3])` (43_key_schedule.md R176). -/
def roundKeyOf (w : List Word) (k : Nat) : RoundKey := Vector.ofFn fun c => w.getD (4 * k + c.val) 0

/-! ### Commands -/

/-- `LDKEY nk, q` (43_key_schedule.md R180): `nk` outside {4, 6, 8} is `E_ILLEGAL`, then a payload of another length
than `4·nk` is `E_KEYLEN`; on either nothing is loaded. -/
def execLdkey (nk : Byte) (q : List Byte) (s : State) : Result :=
  match keyLenOf nk with
  | none => reject .eIllegal s
  | some n => if q.length = 4 * nkWords n then accept 0 [] (loadKey n q s) else reject .eKeyLen s

/-- `KEXP` (43_key_schedule.md R181). -/
def execKexp (s : State) : Result :=
  requireKey s (accept 0 [] (storeSchedule (keyExpansion s.engine.KW (nkWords s.engine.NK)) s))

/-- `RDRK k` (43_key_schedule.md R182). -/
def execRdrk (k : Byte) (s : State) : Result :=
  requireSchedule s <| requireRange k s <|
    accept 0 (bytesOfRoundKey (storedRoundKey s.engine.W k.toNat)) s

end Sys2Proof.Machine
end

