-- ==== Sys2Proof/Machine/Gf.lean ====
section
/-!
DEFINITION. Field arithmetic in GF(2^8): the adder, the two-stage and the iterated multiplier, and the commands
`GFADD`, `GFMUL` (40_gf_arithmetic.md).
-/

namespace Sys2Proof.Machine

/-- `gf_add(a, b) = a ^ b`; subtraction is the same function (40_gf_arithmetic.md R111). -/
def gfAdd (a b : Byte) : Byte := a ^^^ b

/-! ### Two stages: carry-less product, then reduction (40_gf_arithmetic.md R112, R113) -/

/-- The partial products of the bits `i`, `i+1`, … of `b`, `n` of them, added to `p` (40_gf_arithmetic.md R112). -/
def polyMultLoop (a b : Byte) : Nat → Nat → BitVec 15 → BitVec 15
  | 0, _, p => p
  | n + 1, i, p => polyMultLoop a b n (i + 1) (if b.getLsbD i then p ^^^ (a.setWidth 15 <<< i) else p)

/-- `poly_mult_gf2_8(a, b)`: the 15-bit carry-less product (40_gf_arithmetic.md R112). -/
def polyMult (a b : Byte) : BitVec 15 := polyMultLoop a b 8 0 0

/-- The reduction steps for the bits `7 + n` down to 8 (40_gf_arithmetic.md R113). -/
def gfReduceLoop : Nat → BitVec 15 → BitVec 15
  | 0, p => p
  | n + 1, p => gfReduceLoop n (if p.getLsbD (8 + n) then p ^^^ (0x11B#15 <<< n) else p)

/-- `gf_reduce(p)`: a 15-bit polynomial modulo 0x11B (40_gf_arithmetic.md R113). -/
def gfReduce (p : BitVec 15) : Byte := (gfReduceLoop 7 p).setWidth 8

/-! ### The iterated multiplier (40_gf_arithmetic.md R114, R115), normative -/

/-- `xtime(a)`: multiplication by x, one reduction step (40_gf_arithmetic.md R114). -/
def xtime (a : Byte) : Byte := if a.getLsbD 7 then (a <<< 1) ^^^ 0x1B else a <<< 1

/-- `n` iterations of the multiplier's loop from `(acc, x, y)` (40_gf_arithmetic.md R115). -/
def gfMulLoop : Nat → Byte → Byte → Byte → Byte
  | 0, acc, _, _ => acc
  | n + 1, acc, x, y => gfMulLoop n (if y.getLsbD 0 then acc ^^^ x else acc) (xtime x) (y >>> 1)

/-- `gf_mul(a, b)`: exactly 8 iterations (40_gf_arithmetic.md R115). -/
def gfMul (a b : Byte) : Byte := gfMulLoop 8 0 a b

/-! ### Commands -/

/-- `GFADD a, b` (40_gf_arithmetic.md R121). -/
def execGfadd (a b : Byte) (s : State) : Result := accept ((gfAdd a b).setWidth 32) [] s

/-- `GFMUL a, b` (40_gf_arithmetic.md R122). -/
def execGfmul (a b : Byte) (s : State) : Result := accept ((gfMul a b).setWidth 32) [] s

end Sys2Proof.Machine
end

