-- ==== Sys2Proof/Machine/StateOps.lean ====
section
/-!
DEFINITION. The four transformations of the state matrix and the commands `LDST`, `RDST`, `SUBB`, `SHROW`, `MIXC`,
`ARK` (42_state_ops.md).
-/

namespace Sys2Proof.Machine

/-! ### The transformations -/

/-- `sub_bytes(S)`: `S'[r][c] = SBOX[S[r][c]]` (42_state_ops.md R142). -/
def subBytes (S : Block) : Block := mkBlock fun r c => subByte (cell S r c)

/-- `shift_rows(S)`: `S'[r][c] = S[r][(c + r) mod 4]`; the sum of two `Fin 4` is taken modulo 4
(42_state_ops.md R143). -/
def shiftRows (S : Block) : Block := mkBlock fun r c => cell S r (c + r)

/-- The fixed mix matrix `M[r][k]` (42_state_ops.md R144). -/
def mixMatrix : Block :=
  #v[#v[0x02, 0x03, 0x01, 0x01],
    #v[0x01, 0x02, 0x03, 0x01],
    #v[0x01, 0x01, 0x02, 0x03],
    #v[0x03, 0x01, 0x01, 0x02]]

/-- `mix_columns(S)`: `S'[r][c] = XOR_{k=0..3} M[r][k] · S[k][c]` (42_state_ops.md R144). -/
def mixColumns (S : Block) : Block := mkBlock fun r c =>
  gfMul (cell mixMatrix r 0) (cell S 0 c) ^^^ gfMul (cell mixMatrix r 1) (cell S 1 c)
    ^^^ gfMul (cell mixMatrix r 2) (cell S 2 c) ^^^ gfMul (cell mixMatrix r 3) (cell S 3 c)

/-- `add_round_key(S, K)`: `S'[r][c] = S[r][c] ^ (byte r of K[c])`, that is `SC'[c] = SC[c] ^ K[c]`
(42_state_ops.md R145). -/
def addRoundKey (S : Block) (K : RoundKey) : Block := mkBlock fun r c => cell S r c ^^^ byteOf (K[c.val]) r

/-! ### Commands -/

/-- `LDST p` (42_state_ops.md R141): a payload of another length than 16 is `E_LEN`, and nothing is loaded. -/
def execLdst (p : List Byte) (s : State) : Result :=
  if p.length = 16 then accept 0 [] (loadBlock (blockOfBytes p) s) else reject .eLen s

/-- `RDST` (42_state_ops.md R148). -/
def execRdst (s : State) : Result := requireState s (accept 0 (bytesOfBlock s.engine.ST) s)

/-- `SUBB` (42_state_ops.md R149). -/
def execSubb (s : State) : Result := requireState s (accept 0 [] (setBlock (subBytes s.engine.ST) s))

/-- `SHROW` (42_state_ops.md R150). -/
def execShrow (s : State) : Result := requireState s (accept 0 [] (setBlock (shiftRows s.engine.ST) s))

/-- `MIXC` (42_state_ops.md R151). -/
def execMixc (s : State) : Result := requireState s (accept 0 [] (setBlock (mixColumns s.engine.ST) s))

/-- `ARK k` (42_state_ops.md R152). -/
def execArk (k : Byte) (s : State) : Result :=
  requireState s <| requireSchedule s <| requireRange k s <|
    accept 0 [] (setBlock (addRoundKey s.engine.ST (storedRoundKey s.engine.W k.toNat)) s)

end Sys2Proof.Machine
end

