-- ==== Sys2Proof/Machine/Encrypt.lean ====
section
/-!
DEFINITION. Block encryption as a function, its sequencer, its list of elementary operations, and the command `ENC`
(44_block_encrypt.md).
-/

namespace Sys2Proof.Machine

/-! ### Encryption as a function (44_block_encrypt.md R200, R201) -/

/-- `Round(S, K)` (44_block_encrypt.md R201). -/
def roundFn (S : Block) (K : RoundKey) : Block := addRoundKey (mixColumns (shiftRows (subBytes S))) K

/-- `FinalRound(S, K)`: no MixColumns (44_block_encrypt.md R201). -/
def finalRoundFn (S : Block) (K : RoundKey) : Block := addRoundKey (shiftRows (subBytes S)) K

/-- The full rounds `n`, `n+1`, …, `count` of them, with the round keys of the schedule `w`
(44_block_encrypt.md R200). -/
def fullRounds (w : List Word) : Nat → Nat → Block → Block
  | 0, _, S => S
  | count + 1, n, S => fullRounds w count (n + 1) (roundFn S (roundKeyOf w n))

/-- `Encrypt(S0, KW, Nk)`: the initial key addition, the rounds 1 to `Nr - 1`, the final round, `Nr = Nk + 6`
(44_block_encrypt.md R200). -/
def encrypt (S0 : Block) (KW : Vector Word 8) (Nk : Nat) : Block :=
  let Nr := Nk + 6
  let w := keyExpansion KW Nk
  let S := addRoundKey S0 (roundKeyOf w 0)
  let S := fullRounds w (Nr - 1) 1 S
  finalRoundFn S (roundKeyOf w Nr)

/-! ### The sequencer of one `ENC` (44_block_encrypt.md R203, 10_state.md R33): never state between commands -/

/-- The phases, under the source's names (10_state.md R33). -/
inductive Phase where
  | initialized
  | afterInitialRound
  | rounds
  | finalRound
  | ciphertext
deriving DecidableEq, Repr

/-- The sequencer `(PH, RN)` with the working state `S` (44_block_encrypt.md R203). -/
structure Sequencer where
  PH : Phase
  RN : Nat
  S : Block
deriving DecidableEq, Repr

/-- Transition T0: `S <- ST` (44_block_encrypt.md R203). -/
def seqStart (ST : Block) : Sequencer := ⟨.initialized, 0, ST⟩

/-- Transitions T1 to T5 for the round keys of schedule `w`; `ciphertext` is terminal (44_block_encrypt.md R203,
R208). -/
def seqStep (w : List Word) (Nr : Nat) (q : Sequencer) : Sequencer :=
  match q.PH with
  | .initialized => ⟨.afterInitialRound, 0, addRoundKey q.S (roundKeyOf w 0)⟩
  | .afterInitialRound => ⟨.rounds, 1, roundFn q.S (roundKeyOf w 1)⟩
  | .rounds =>
    if q.RN < Nr - 1 then ⟨.rounds, q.RN + 1, roundFn q.S (roundKeyOf w (q.RN + 1))⟩
    else ⟨.finalRound, Nr, finalRoundFn q.S (roundKeyOf w Nr)⟩
  | .finalRound => ⟨.ciphertext, Nr, q.S⟩
  | .ciphertext => q

/-- `n` transitions. -/
def seqRun (w : List Word) (Nr : Nat) : Nat → Sequencer → Sequencer
  | 0, q => q
  | n + 1, q => seqRun w Nr n (seqStep w Nr q)

/-! ### The elementary operations of one encryption, in order (44_block_encrypt.md R204, R206) -/

/-- One application of an elementary transformation. -/
inductive RoundOp where
  | subBytes
  | shiftRows
  | mixColumns
  | addRoundKey (k : Nat)
deriving DecidableEq, Repr

/-- The operations of a full round `n` (44_block_encrypt.md R201). -/
def roundOps (n : Nat) : List RoundOp := [.subBytes, .shiftRows, .mixColumns, .addRoundKey n]

/-- The operations of an encryption of `Nr` rounds (44_block_encrypt.md R200, R206). -/
def encOps (Nr : Nat) : List RoundOp :=
  [.addRoundKey 0] ++ (List.range' 1 (Nr - 1)).flatMap roundOps ++ [.subBytes, .shiftRows, .addRoundKey Nr]

/-- What one operation does to the working state, with the round keys of schedule `w`. -/
def applyOp (w : List Word) (S : Block) : RoundOp → Block
  | .subBytes => Sys2Proof.Machine.subBytes S
  | .shiftRows => Sys2Proof.Machine.shiftRows S
  | .mixColumns => Sys2Proof.Machine.mixColumns S
  | .addRoundKey k => Sys2Proof.Machine.addRoundKey S (roundKeyOf w k)

/-! ### The command -/

/-- `ENC` (44_block_encrypt.md R205): the ciphertext in `ST`, the schedule discarded. It derives the round keys
itself, whatever `WV` is. -/
def execEnc (s : State) : Result :=
  requireState s <| requireKey s <|
    accept 0 [] (discardSchedule
      (setBlock (encrypt s.engine.ST s.engine.KW (nkWords s.engine.NK)) s))

end Sys2Proof.Machine
end

