-- ==== Sys2Proof/Machine/System.lean ====
section
/-!
DEFINITION. The system command `RDSTAT` (45_system.md).
-/

namespace Sys2Proof.Machine

/-- `RDSTAT`: the status register as it was before this command; nothing is written (45_system.md R220). -/
def execRdstat (s : State) : Result := acceptQuiet (status s.engine) s

end Sys2Proof.Machine
end

