-- ==== Sys2Proof/Machine/Dispatch.lean ====
section
/-!
DEFINITION. One arm per command: its meaning.
-/

namespace Sys2Proof.Machine

def exec (i : Instr) (s : State) : Host.Outcome State Fault Refusal :=
  match i with
  | .gfadd a b => Sys2Proof.Machine.execGfadd a b s
  | .gfmul a b => Sys2Proof.Machine.execGfmul a b s
  | .sbox a => Sys2Proof.Machine.execSbox a s
  | .ldst p => Sys2Proof.Machine.execLdst p s
  | .rdst => Sys2Proof.Machine.execRdst s
  | .subb => Sys2Proof.Machine.execSubb s
  | .shrow => Sys2Proof.Machine.execShrow s
  | .mixc => Sys2Proof.Machine.execMixc s
  | .ark k => Sys2Proof.Machine.execArk k s
  | .ldkey nk q => Sys2Proof.Machine.execLdkey nk q s
  | .kexp => Sys2Proof.Machine.execKexp s
  | .rdrk k => Sys2Proof.Machine.execRdrk k s
  | .enc => Sys2Proof.Machine.execEnc s
  | .rdstat => Sys2Proof.Machine.execRdstat s

end Sys2Proof.Machine
end

