-- ==== Sys2Proof/Machine/Step.lean ====
section
/-!
DEFINITION. One step: the engine takes the host's next event. A command is decoded and executed or rejected, in one
indivisible transition with one response (00_scope.md R8; 30_encoding.md R85, R89); without an event nothing changes
(00_scope.md R9).
-/

namespace Sys2Proof.Machine

/-- One transition of the engine. -/
def step (s : State) : Host.Outcome State Fault Refusal :=
  match takeEvent s with
  | none => .next s
  | some (.reset, s') => .next (resetEngine s')
  | some (.command c, s') =>
    match decode c with
    | .ok i => exec i s'
    | .error code => reject code s'

/-- The host issues, as its very next event, the command whose bits are the low `nbits` of `w`: so a program comes to
run (log entry 5). -/
def State.withFetchWord (s : State) (nbits w : Nat) : State := issue (commandOfTableWord nbits w) s

end Sys2Proof.Machine
end

