-- ==== Sys2Proof/Safety.lean ====
section
/-!
DEFINITION. The terms the statements use: the state after a rejection and after an acceptance, the invariants of
10_state.md R28, the decoding procedure of 30_encoding.md R85 and the causes of 60_exceptions.md R230 as the spec
writes them, what a host can see (10_state.md R34), and command sequences.
-/

namespace Sys2Proof.Safety

open Sys2Proof.Machine

/-! ### A command on the port and its two endings -/

/-- The state in which the host has issued `c` as its next event (00_scope.md R9). -/
def issued (c : Command) (s : State) : State := { s with input := .command c :: s.input }

/-- The state after the rejection of a command with `code` (60_exceptions.md R231): `ERR` and the response. -/
def afterReject (code : RejectCode) (s : State) : State :=
  { s with engine := { s.engine with ERR := code }, responses := ⟨code, 0, []⟩ :: s.responses }

/-- The state after an accepted command that leaves the engine as `e` but for `ERR <- OK`, and responds with `val`
and `data` (10_state.md R29, 30_encoding.md R89). -/
def afterAccept (val : Word) (data : List Byte) (e : EngineState) (s : State) : State :=
  { s with engine := { e with ERR := .ok }, responses := ⟨.ok, val, data⟩ :: s.responses }

/-! ### The decoding procedure of 30_encoding.md R85, step by step -/

/-- The 14 opcodes (30_encoding.md R84). -/
def opcodes : List Byte :=
  [0x10#8, 0x11#8, 0x20#8, 0x30#8, 0x31#8, 0x32#8, 0x33#8, 0x34#8, 0x35#8, 0x40#8, 0x41#8, 0x42#8, 0x50#8, 0x60#8]

/-- The opcodes whose format has an operand in `A` (30_encoding.md R82: formats `A`, `AB`, `AP`). -/
def usesA : List Byte := [0x10#8, 0x11#8, 0x20#8, 0x35#8, 0x40#8, 0x42#8]

/-- The opcodes whose format has an operand in `B` (30_encoding.md R82: format `AB`). -/
def usesB : List Byte := [0x10#8, 0x11#8]

/-- `RDST`, `SUBB`, `SHROW`, `MIXC`, `ARK`, `ENC` (30_encoding.md R85). -/
def readsST : List Byte := [0x31#8, 0x32#8, 0x33#8, 0x34#8, 0x35#8, 0x50#8]

/-- `KEXP`, `ENC` (30_encoding.md R85). -/
def readsKW : List Byte := [0x41#8, 0x50#8]

/-- `ARK`, `RDRK` (30_encoding.md R85). -/
def readsW : List Byte := [0x35#8, 0x42#8]

/-- The illegal command words (30_encoding.md R86): no opcode; a non-zero value in a field the format does not use;
`LDKEY` with `A` outside {4, 6, 8}. -/
abbrev illegalWord (w : Word) : Prop :=
  opField w ∉ opcodes ∨
  (opField w ∉ usesA ∧ aField w ≠ 0#8) ∨
  (opField w ∉ usesB ∧ bField w ≠ 0#8) ∨
  (opField w = 0x40#8 ∧ (aField w).toNat ∉ [4, 6, 8])

/-- The reject code of command `c` in engine state `e`, by the steps 1 to 9 of 30_encoding.md R85. -/
def procedureCode (c : Command) (e : EngineState) : RejectCode :=
  let op := opField c.cmd
  let A := (aField c.cmd).toNat
  let LEN := (lenField c.cmd).toNat
  if illegalWord c.cmd then .eIllegal
  else if op = 0x40#8 ∧ LEN ≠ 4 * A then .eKeyLen
  else if (op = 0x30#8 ∧ LEN ≠ 16) ∨ (op ≠ 0x30#8 ∧ op ≠ 0x40#8 ∧ LEN ≠ 0) then .eLen
  else if op ∈ readsST ∧ e.SV = false then .eNoState
  else if op ∈ readsKW ∧ e.KV = false then .eNoKey
  else if op ∈ readsW ∧ e.WV = false then .eNoSched
  else if op ∈ readsW ∧ A > nkWords e.NK + 6 then .eRange
  else .ok

/-- Whether the cause of a reject code applies (60_exceptions.md R230), each cause on its own. -/
abbrev causeApplies (code : RejectCode) (c : Command) (e : EngineState) : Prop :=
  match code with
  | .ok => False
  | .eIllegal => illegalWord c.cmd
  | .eKeyLen => opField c.cmd = 0x40#8 ∧ (lenField c.cmd).toNat ≠ 4 * (aField c.cmd).toNat
  | .eLen => (opField c.cmd = 0x30#8 ∧ (lenField c.cmd).toNat ≠ 16) ∨
      (opField c.cmd ∈ opcodes ∧ opField c.cmd ≠ 0x30#8 ∧ opField c.cmd ≠ 0x40#8 ∧ lenField c.cmd ≠ 0#8)
  | .eNoState => opField c.cmd ∈ readsST ∧ e.SV = false
  | .eNoKey => opField c.cmd ∈ readsKW ∧ e.KV = false
  | .eNoSched => opField c.cmd ∈ readsW ∧ e.WV = false
  | .eRange => opField c.cmd ∈ readsW ∧ (aField c.cmd).toNat > nkWords e.NK + 6

/-! ### Invariants (10_state.md R28) -/

/-- The four invariants of 10_state.md R28, in its order. -/
abbrev EngineInv (s : State) : Prop :=
  ((s.engine.KV = false ↔ nkWords s.engine.NK = 0) ∧ (s.engine.KV = true ↔ nkWords s.engine.NK ∈ [4, 6, 8])) ∧
  (s.engine.WV = true → s.engine.KV = true) ∧
  (s.engine.WV = true → ∀ i : Fin 60, i.val < scheduleLength (nkWords s.engine.NK) →
    (keyExpansion s.engine.KW (nkWords s.engine.NK))[i.val]? = some s.engine.W[i.val]) ∧
  (rcBits s.engine.ERR).toNat ≤ 7

/-! ### What a host can see (10_state.md R34) -/

/-- Two states that differ at most in contents the spec calls unspecified and unobservable: the bytes of `ST`, `KW`,
`W` while their valid flag is 0, and the words beyond the key and beyond the schedule
(93_implementation_defined.md U3 to U7). -/
abbrev sameVisible (s t : State) : Prop :=
  s.input = t.input ∧ s.responses = t.responses ∧
  s.engine.SV = t.engine.SV ∧ s.engine.NK = t.engine.NK ∧ s.engine.KV = t.engine.KV ∧
  s.engine.WV = t.engine.WV ∧ s.engine.ERR = t.engine.ERR ∧
  (s.engine.SV = true → s.engine.ST = t.engine.ST) ∧
  (s.engine.KV = true → ∀ j : Fin 8, j.val < nkWords s.engine.NK → s.engine.KW[j.val] = t.engine.KW[j.val]) ∧
  (s.engine.WV = true → ∀ i : Fin 60, i.val < scheduleLength (nkWords s.engine.NK) →
    s.engine.W[i.val] = t.engine.W[i.val])

/-! ### Command sequences -/

/-- The host's events for a list of commands. -/
def commands (l : List Instr) : List Event := l.map fun i => .command (encodeCommand i)

/-- The command sequence of 44_block_encrypt.md R206 for `Nr` rounds. -/
def elementaryCommands (Nr : Nat) : List Instr :=
  [.kexp, .ark 0] ++
  (List.range' 1 (Nr - 1)).flatMap (fun n => [.subb, .shrow, .mixc, .ark (BitVec.ofNat 8 n)]) ++
  [.subb, .shrow, .ark (BitVec.ofNat 8 Nr)]

/-- The key register that a key byte string fills (20_memory.md R57). -/
def keyOfBytes (q : List Byte) : Vector Word 8 := Vector.ofFn fun j => keyWord q j.val

/-! ### What the commands with open contents leave -/

/-- What an accepted `LDKEY` with `nk` words and payload `q` makes of state `s` (43_key_schedule.md R180): the words
above the key are left open. -/
abbrev keyLoaded (nk : Nat) (q : List Byte) (s t : State) : Prop :=
  (∀ j : Fin 8, j.val < nk → t.engine.KW[j.val] =
    wordOfBytes (byteAt q (4 * j.val)) (byteAt q (4 * j.val + 1)) (byteAt q (4 * j.val + 2)) (byteAt q (4 * j.val + 3))) ∧
  nkWords t.engine.NK = nk ∧ t.engine.KV = true ∧ t.engine.WV = false ∧ t.engine.ERR = .ok ∧
  t.engine.ST = s.engine.ST ∧ t.engine.SV = s.engine.SV ∧
  t.input = s.input ∧ t.responses = { rc := .ok, val := 0, data := [] } :: s.responses

/-- What an accepted `KEXP` makes of state `s` (43_key_schedule.md R181): the words above the schedule are left
open. -/
abbrev scheduleStored (s t : State) : Prop :=
  (∀ i : Fin 60, i.val < 4 * (nkWords s.engine.NK + 7) →
    some t.engine.W[i.val] = (keyExpansion s.engine.KW (nkWords s.engine.NK))[i.val]?) ∧
  t.engine.WV = true ∧ t.engine.ERR = .ok ∧
  t.engine.ST = s.engine.ST ∧ t.engine.SV = s.engine.SV ∧ t.engine.KW = s.engine.KW ∧
  t.engine.NK = s.engine.NK ∧ t.engine.KV = s.engine.KV ∧
  t.input = s.input ∧ t.responses = { rc := .ok, val := 0, data := [] } :: s.responses

/-- What an accepted `ENC` makes of state `s` (44_block_encrypt.md R205): the contents of `W` are left open. -/
abbrev blockEncrypted (s t : State) : Prop :=
  t.engine.ST = encrypt s.engine.ST s.engine.KW (nkWords s.engine.NK) ∧
  t.engine.WV = false ∧ t.engine.ERR = .ok ∧
  t.engine.SV = s.engine.SV ∧ t.engine.KW = s.engine.KW ∧ t.engine.NK = s.engine.NK ∧ t.engine.KV = s.engine.KV ∧
  t.input = s.input ∧ t.responses = { rc := .ok, val := 0, data := [] } :: s.responses

/-! ### The known answers' operands -/

/-- The bytes 0, 1, …, n-1: the keys of 95_test_vectors.md V-D20 to V-D22. -/
abbrev countingBytes (n : Nat) : List Byte := (List.range n).map (BitVec.ofNat 8)

/-- The plaintext `00112233445566778899aabbccddeeff` of 44_block_encrypt.md R202. -/
abbrev samplePlaintext : List Byte := (List.range 16).map fun k => BitVec.ofNat 8 (0x11 * k)

end Sys2Proof.Safety
end

