-- ==== Sys2Proof/Certificates/Slice0/Obligations.lean ====
section
/-!
DEFINITION. The statements for the provers, one Prop each, from the numbered rules of the spec.
-/

open Sys2Proof Sys2Proof.Machine Sys2Proof.Safety

/-! ### Encoding -/

/-- Every well-formed command, put on the port by the encoder, is read back by the decoder (30_encoding.md R81 to
R84). -/
def Obligations.DecodeOfEncodeGivesTheCommand : Prop :=
  ∀ i : Instr, i.wf = true → decode (encodeCommand i) = .ok i

/-- The command on the port is the encoding of the instruction the decoder reads from it: each word and payload has
one meaning, and the decoder drops no bit (30_encoding.md R81 to R84). -/
def Obligations.EncodeOfDecodeGivesTheWord : Prop :=
  ∀ (c : Command) (i : Instr), decode c = .ok i → encodeCommand i = c

/-- Words written out from the encoding tables, one per family, decode to their commands (30_encoding.md R84, R90;
95_test_vectors.md P1, P3, P5). -/
def Obligations.WrittenOutWordsDecode : Prop :=
  decode (transfer 0x11578300 []) = .ok (.gfmul 0x57 0x83) ∧
  decode (transfer 0x20530000 []) = .ok (.sbox 0x53) ∧
  decode (transfer 0x350A0000 []) = .ok (.ark 10) ∧
  decode (transfer 0x40040010 (List.replicate 16 0xA5)) = .ok (.ldkey 4 (List.replicate 16 0xA5)) ∧
  decode (transfer 0x50000000 []) = .ok .enc ∧
  decode (transfer 0x60000000 []) = .ok .rdstat

/-- The command word is `OP·2^24 + A·2^16 + B·2^8 + LEN` (30_encoding.md R81). -/
def Obligations.CommandWordLayout : Prop :=
  ∀ w : Word, w.toNat = (opField w).toNat * 2 ^ 24 + (aField w).toNat * 2 ^ 16 + (bField w).toNat * 2 ^ 8
    + (lenField w).toNat

/-- R86: an illegal command word is rejected with `E_ILLEGAL` and has no other effect, in every state; and no other
word is rejected with that code. -/
def Obligations.IllegalWordsAreRejectedWithEIllegal : Prop :=
  ∀ (s : State) (c : Command),
    (illegalWord c.cmd → step (issued c s) = .next (afterReject .eIllegal s)) ∧
    (¬ illegalWord c.cmd → ∃ r t, step (issued c s) = .next t ∧ t.responses = r :: s.responses ∧ r.rc ≠ .eIllegal)

/-! ### The step -/

/-- A step takes the next command off the port, and is `exec` of the instruction the decoder reads, or the rejection
the decoder names (00_scope.md R8, R9; 30_encoding.md R85). -/
def Obligations.StepExecutesTheDecodedCommand : Prop :=
  ∀ (s : State) (c : Command),
    (∀ i, decode c = .ok i → step (issued c s) = exec i s) ∧
    (∀ code, decode c = .error code → step (issued c s) = .next (afterReject code s))

/-- The word placed by `withFetchWord` is the very next command executed: the step is `exec` of the instruction that
`decodeTableWord` reads (log entry 5: the numbering of the bits is the model's choice). -/
def Obligations.FetchedTableWordIsExecuted : Prop :=
  ∀ (s : State) (nbits w : Nat) (i : Instr), decodeTableWord nbits w = some i →
    step (s.withFetchWord nbits w) = exec i s

/-- R9, last sentence: without a command or a reset a step changes nothing. That an idle step is a step that leaves
the state as it is, is the model's choice (log entry 3). -/
def Obligations.NothingHappensWithoutAnEvent : Prop :=
  ∀ s : State, s.input = [] → step s = .next s

/-- R85: for every command and every engine state, the response carries the code that the decoding procedure's nine
steps give, and `OK` exactly where they accept. -/
def Obligations.StepFollowsTheDecodingProcedure : Prop :=
  ∀ (s : State) (c : Command), ∃ r t, step (issued c s) = .next t ∧ t.responses = r :: s.responses ∧
    r.rc = procedureCode c s.engine

/-- R233: when several causes apply to one command, the response carries the one with the lowest code; when none
applies, `OK`. -/
def Obligations.LowestApplicableCodeWins : Prop :=
  ∀ (s : State) (c : Command), ∃ r t, step (issued c s) = .next t ∧ t.responses = r :: s.responses ∧
    (r.rc = .ok ↔ ∀ k, ¬ causeApplies k c s.engine) ∧
    (r.rc ≠ .ok → causeApplies r.rc c s.engine) ∧
    (∀ k, causeApplies k c s.engine → (rcBits r.rc).toNat ≤ (rcBits k).toNat)

/-- R231, R232: a command that is rejected writes `ERR` and responds `(code, 0, empty)`; nothing else changes. -/
def Obligations.RejectionWritesOnlyErr : Prop :=
  ∀ (s : State) (c : Command), procedureCode c s.engine ≠ .ok →
    step (issued c s) = .next { s with
      engine := { s.engine with ERR := procedureCode c s.engine }
      responses := { rc := procedureCode c s.engine, val := 0, data := [] } :: s.responses }

/-- R272: every command terminates and produces its response, whatever the engine state; every step answers a next
state (no fault, no refusal). -/
def Obligations.EveryCommandTerminatesAndResponds : Prop :=
  (∀ s : State, ∃ t, step s = .next t) ∧
  (∀ (s : State) (c : Command), ∃ r t, step (issued c s) = .next t ∧ t.input = s.input ∧
    t.responses = r :: s.responses)

/-- R89: the fields of the response, by command. -/
def Obligations.ResponseFieldsByCommand : Prop :=
  ∀ (s : State) (c : Command), ∃ r t, step (issued c s) = .next t ∧ t.responses = r :: s.responses ∧
    (r.rc ≠ .ok → r.val = 0 ∧ r.data = []) ∧
    (r.rc = .ok →
      r.val =
        (if opField c.cmd = 0x10#8 then (gfAdd (aField c.cmd) (bField c.cmd)).setWidth 32
         else if opField c.cmd = 0x11#8 then (gfMul (aField c.cmd) (bField c.cmd)).setWidth 32
         else if opField c.cmd = 0x20#8 then (subByte (aField c.cmd)).setWidth 32
         else if opField c.cmd = 0x60#8 then status s.engine
         else 0) ∧
      r.data =
        (if opField c.cmd = 0x31#8 then bytesOfBlock s.engine.ST
         else if opField c.cmd = 0x42#8 then bytesOfRoundKey (storedRoundKey s.engine.W (aField c.cmd).toNat)
         else [])) ∧
    (r.data.length = 0 ∨ r.data.length = 16)

/-- R29: every command writes `ERR <- RC`, its own reject code, but an accepted `RDSTAT` writes nothing; `ERR` is 0
after reset; no command reads `ERR` except `RDSTAT`. -/
def Obligations.ErrHoldsTheCodeOfTheLastCommand : Prop :=
  (∀ (s : State) (c : Command), ∃ r t, step (issued c s) = .next t ∧ t.responses = r :: s.responses ∧
    (opField c.cmd = 0x60#8 ∧ r.rc = .ok → t.engine = s.engine) ∧
    (¬ (opField c.cmd = 0x60#8 ∧ r.rc = .ok) → t.engine.ERR = r.rc)) ∧
  rcBits State.reset.engine.ERR = 0 ∧
  (∀ (s : State) (c : Command) (code : RejectCode), opField c.cmd ≠ 0x60#8 →
    step (issued c { s with engine := { s.engine with ERR := code } }) = step (issued c s))

/-! ### The commands -/

/-- R121: `GFADD a, b`, from its command word and as an instruction. -/
def Obligations.GfaddFollowsItsRule : Prop :=
  (∀ (s : State) (c : Command), opField c.cmd = 0x10#8 →
    step (issued c s) = .next (
      if lenField c.cmd ≠ 0#8 then afterReject .eLen s
      else afterAccept ((aField c.cmd ^^^ bField c.cmd).setWidth 32) [] s.engine s)) ∧
  (∀ (s : State) (a b : Byte), exec (.gfadd a b) s = .next (afterAccept ((a ^^^ b).setWidth 32) [] s.engine s))

/-- R122: `GFMUL a, b`, from its command word and as an instruction. -/
def Obligations.GfmulFollowsItsRule : Prop :=
  (∀ (s : State) (c : Command), opField c.cmd = 0x11#8 →
    step (issued c s) = .next (
      if lenField c.cmd ≠ 0#8 then afterReject .eLen s
      else afterAccept ((gfMul (aField c.cmd) (bField c.cmd)).setWidth 32) [] s.engine s)) ∧
  (∀ (s : State) (a b : Byte), exec (.gfmul a b) s = .next (afterAccept ((gfMul a b).setWidth 32) [] s.engine s))

/-- R134: `SBOX a`, from its command word and as an instruction. -/
def Obligations.SboxFollowsItsRule : Prop :=
  (∀ (s : State) (c : Command), opField c.cmd = 0x20#8 →
    step (issued c s) = .next (
      if bField c.cmd ≠ 0#8 then afterReject .eIllegal s
      else if lenField c.cmd ≠ 0#8 then afterReject .eLen s
      else afterAccept ((subByte (aField c.cmd)).setWidth 32) [] s.engine s)) ∧
  (∀ (s : State) (a : Byte), exec (.sbox a) s = .next (afterAccept ((subByte a).setWidth 32) [] s.engine s))

/-- R141: `LDST p`, from its command word and as an instruction: every cell of `ST` from the payload, `SV <- 1`. -/
def Obligations.LdstFollowsItsRule : Prop :=
  (∀ (s : State) (c : Command), opField c.cmd = 0x30#8 →
    ((aField c.cmd ≠ 0#8 ∨ bField c.cmd ≠ 0#8) → step (issued c s) = .next (afterReject .eIllegal s)) ∧
    (aField c.cmd = 0#8 ∧ bField c.cmd = 0#8 ∧ lenField c.cmd ≠ 16#8 → step (issued c s) = .next (afterReject .eLen s)) ∧
    (aField c.cmd = 0#8 ∧ bField c.cmd = 0#8 ∧ lenField c.cmd = 16#8 → ∃ S : Block,
      (∀ r k : Fin 4, cell S r k = byteAt c.pl (r.val + 4 * k.val)) ∧
      step (issued c s) = .next (afterAccept 0 [] { s.engine with ST := S, SV := true } s))) ∧
  (∀ (s : State) (p : List Byte), p.length = 16 → ∃ S : Block,
    (∀ r k : Fin 4, cell S r k = byteAt p (r.val + 4 * k.val)) ∧
    exec (.ldst p) s = .next (afterAccept 0 [] { s.engine with ST := S, SV := true } s))

/-- R148: `RDST`, from its command word and as an instruction: byte `k` of the data is `ST[k mod 4][k div 4]`. -/
def Obligations.RdstFollowsItsRule : Prop :=
  (∀ (s : State) (c : Command), opField c.cmd = 0x31#8 → ∃ d : List Byte, d.length = 16 ∧
    (∀ r k : Fin 4, d[r.val + 4 * k.val]? = some (cell s.engine.ST r k)) ∧
    step (issued c s) = .next (
      if aField c.cmd ≠ 0#8 ∨ bField c.cmd ≠ 0#8 then afterReject .eIllegal s
      else if lenField c.cmd ≠ 0#8 then afterReject .eLen s
      else if s.engine.SV = false then afterReject .eNoState s
      else afterAccept 0 d s.engine s)) ∧
  (∀ s : State, s.engine.SV = true →
    exec .rdst s = .next (afterAccept 0 (bytesOfBlock s.engine.ST) s.engine s))

/-- R149: `SUBB`, from its command word and as an instruction. -/
def Obligations.SubbFollowsItsRule : Prop :=
  (∀ (s : State) (c : Command), opField c.cmd = 0x32#8 →
    step (issued c s) = .next (
      if aField c.cmd ≠ 0#8 ∨ bField c.cmd ≠ 0#8 then afterReject .eIllegal s
      else if lenField c.cmd ≠ 0#8 then afterReject .eLen s
      else if s.engine.SV = false then afterReject .eNoState s
      else afterAccept 0 [] { s.engine with ST := subBytes s.engine.ST } s)) ∧
  (∀ s : State, s.engine.SV = true →
    exec .subb s = .next (afterAccept 0 [] { s.engine with ST := subBytes s.engine.ST } s))

/-- R150: `SHROW`, from its command word and as an instruction. -/
def Obligations.ShrowFollowsItsRule : Prop :=
  (∀ (s : State) (c : Command), opField c.cmd = 0x33#8 →
    step (issued c s) = .next (
      if aField c.cmd ≠ 0#8 ∨ bField c.cmd ≠ 0#8 then afterReject .eIllegal s
      else if lenField c.cmd ≠ 0#8 then afterReject .eLen s
      else if s.engine.SV = false then afterReject .eNoState s
      else afterAccept 0 [] { s.engine with ST := shiftRows s.engine.ST } s)) ∧
  (∀ s : State, s.engine.SV = true →
    exec .shrow s = .next (afterAccept 0 [] { s.engine with ST := shiftRows s.engine.ST } s))

/-- R151: `MIXC`, from its command word and as an instruction. -/
def Obligations.MixcFollowsItsRule : Prop :=
  (∀ (s : State) (c : Command), opField c.cmd = 0x34#8 →
    step (issued c s) = .next (
      if aField c.cmd ≠ 0#8 ∨ bField c.cmd ≠ 0#8 then afterReject .eIllegal s
      else if lenField c.cmd ≠ 0#8 then afterReject .eLen s
      else if s.engine.SV = false then afterReject .eNoState s
      else afterAccept 0 [] { s.engine with ST := mixColumns s.engine.ST } s)) ∧
  (∀ s : State, s.engine.SV = true →
    exec .mixc s = .next (afterAccept 0 [] { s.engine with ST := mixColumns s.engine.ST } s))

/-- R152: `ARK k`, from its command word and as an instruction: round key `k` is `(W[4k], …, W[4k+3])`. -/
def Obligations.ArkFollowsItsRule : Prop :=
  (∀ (s : State) (c : Command), opField c.cmd = 0x35#8 →
    step (issued c s) = .next (
      if bField c.cmd ≠ 0#8 then afterReject .eIllegal s
      else if lenField c.cmd ≠ 0#8 then afterReject .eLen s
      else if s.engine.SV = false then afterReject .eNoState s
      else if s.engine.WV = false then afterReject .eNoSched s
      else if (aField c.cmd).toNat > nkWords s.engine.NK + 6 then afterReject .eRange s
      else afterAccept 0 [] { s.engine with
        ST := addRoundKey s.engine.ST
          #v[schedWord s.engine.W (4 * (aField c.cmd).toNat), schedWord s.engine.W (4 * (aField c.cmd).toNat + 1),
            schedWord s.engine.W (4 * (aField c.cmd).toNat + 2),
            schedWord s.engine.W (4 * (aField c.cmd).toNat + 3)] } s)) ∧
  (∀ (s : State) (k : Byte), s.engine.SV = true → s.engine.WV = true → k.toNat ≤ nkWords s.engine.NK + 6 →
    exec (.ark k) s = .next (afterAccept 0 [] { s.engine with
      ST := addRoundKey s.engine.ST (storedRoundKey s.engine.W k.toNat) } s))

/-- R180: `LDKEY nk, q`, from its command word and as an instruction. -/
def Obligations.LdkeyFollowsItsRule : Prop :=
  (∀ (s : State) (c : Command), opField c.cmd = 0x40#8 →
    ((bField c.cmd ≠ 0#8 ∨ (aField c.cmd).toNat ∉ [4, 6, 8]) →
      step (issued c s) = .next (afterReject .eIllegal s)) ∧
    (bField c.cmd = 0#8 ∧ (aField c.cmd).toNat ∈ [4, 6, 8] ∧ (lenField c.cmd).toNat ≠ 4 * (aField c.cmd).toNat →
      step (issued c s) = .next (afterReject .eKeyLen s)) ∧
    (bField c.cmd = 0#8 ∧ (aField c.cmd).toNat ∈ [4, 6, 8] ∧ (lenField c.cmd).toNat = 4 * (aField c.cmd).toNat →
      ∃ t, step (issued c s) = .next t ∧ keyLoaded (aField c.cmd).toNat c.pl s t)) ∧
  (∀ (s : State) (nk : Byte) (q : List Byte), nk.toNat ∈ [4, 6, 8] → q.length = 4 * nk.toNat →
    ∃ t, exec (.ldkey nk q) s = .next t ∧ keyLoaded nk.toNat q s t)

/-- R181: `KEXP`, from its command word and as an instruction. -/
def Obligations.KexpFollowsItsRule : Prop :=
  (∀ (s : State) (c : Command), opField c.cmd = 0x41#8 →
    ((aField c.cmd ≠ 0#8 ∨ bField c.cmd ≠ 0#8) → step (issued c s) = .next (afterReject .eIllegal s)) ∧
    (aField c.cmd = 0#8 ∧ bField c.cmd = 0#8 ∧ lenField c.cmd ≠ 0#8 → step (issued c s) = .next (afterReject .eLen s)) ∧
    (aField c.cmd = 0#8 ∧ bField c.cmd = 0#8 ∧ lenField c.cmd = 0#8 ∧ s.engine.KV = false →
      step (issued c s) = .next (afterReject .eNoKey s)) ∧
    (aField c.cmd = 0#8 ∧ bField c.cmd = 0#8 ∧ lenField c.cmd = 0#8 ∧ s.engine.KV = true →
      ∃ t, step (issued c s) = .next t ∧ scheduleStored s t)) ∧
  (∀ s : State, s.engine.KV = true → ∃ t, exec .kexp s = .next t ∧ scheduleStored s t)

/-- R182: `RDRK k`, from its command word and as an instruction: `d[4c + j]` is byte `j` of `W[4k + c]`. -/
def Obligations.RdrkFollowsItsRule : Prop :=
  (∀ (s : State) (c : Command), opField c.cmd = 0x42#8 → ∃ d : List Byte, d.length = 16 ∧
    (∀ k j : Fin 4, d[4 * k.val + j.val]? = some (byteOf (schedWord s.engine.W (4 * (aField c.cmd).toNat + k.val)) j)) ∧
    step (issued c s) = .next (
      if bField c.cmd ≠ 0#8 then afterReject .eIllegal s
      else if lenField c.cmd ≠ 0#8 then afterReject .eLen s
      else if s.engine.WV = false then afterReject .eNoSched s
      else if (aField c.cmd).toNat > nkWords s.engine.NK + 6 then afterReject .eRange s
      else afterAccept 0 d s.engine s)) ∧
  (∀ (s : State) (k : Byte), s.engine.WV = true → k.toNat ≤ nkWords s.engine.NK + 6 →
    exec (.rdrk k) s = .next (afterAccept 0 (bytesOfRoundKey (storedRoundKey s.engine.W k.toNat)) s.engine s))

/-- R205: `ENC`, from its command word and as an instruction. -/
def Obligations.EncFollowsItsRule : Prop :=
  (∀ (s : State) (c : Command), opField c.cmd = 0x50#8 →
    ((aField c.cmd ≠ 0#8 ∨ bField c.cmd ≠ 0#8) → step (issued c s) = .next (afterReject .eIllegal s)) ∧
    (aField c.cmd = 0#8 ∧ bField c.cmd = 0#8 ∧ lenField c.cmd ≠ 0#8 → step (issued c s) = .next (afterReject .eLen s)) ∧
    (aField c.cmd = 0#8 ∧ bField c.cmd = 0#8 ∧ lenField c.cmd = 0#8 ∧ s.engine.SV = false →
      step (issued c s) = .next (afterReject .eNoState s)) ∧
    (aField c.cmd = 0#8 ∧ bField c.cmd = 0#8 ∧ lenField c.cmd = 0#8 ∧ s.engine.SV = true ∧ s.engine.KV = false →
      step (issued c s) = .next (afterReject .eNoKey s)) ∧
    (aField c.cmd = 0#8 ∧ bField c.cmd = 0#8 ∧ lenField c.cmd = 0#8 ∧ s.engine.SV = true ∧ s.engine.KV = true →
      ∃ t, step (issued c s) = .next t ∧ blockEncrypted s t)) ∧
  (∀ s : State, s.engine.SV = true → s.engine.KV = true → ∃ t, exec .enc s = .next t ∧ blockEncrypted s t)

/-- R220: `RDSTAT`, from its command word and as an instruction: `STATUS` as it was, and nothing written. -/
def Obligations.RdstatFollowsItsRule : Prop :=
  (∀ (s : State) (c : Command), opField c.cmd = 0x60#8 →
    step (issued c s) = .next (
      if aField c.cmd ≠ 0#8 ∨ bField c.cmd ≠ 0#8 then afterReject .eIllegal s
      else if lenField c.cmd ≠ 0#8 then afterReject .eLen s
      else { s with responses := { rc := .ok, val := status s.engine, data := [] } :: s.responses })) ∧
  (∀ s : State, exec .rdstat s =
    .next { s with responses := { rc := .ok, val := status s.engine, data := [] } :: s.responses })

/-! ### State, flags, reset -/

/-- R28 at State.reset. -/
def Obligations.InvariantsHoldAtReset : Prop := EngineInv State.reset

/-- R28: the invariants are kept by every step, from every state that has them. -/
def Obligations.StepKeepsTheInvariants : Prop :=
  ∀ s t : State, EngineInv s → step s = .next t → EngineInv t

/-- What each instruction leaves untouched, whether it is accepted or rejected (10_state.md R36); a response is added
and the port's queue stays. That `LDKEY` leaves the contents of `W` is the model's choice (log entry 8). -/
def Obligations.CommandsTouchOnlyTheirState : Prop :=
  ∀ (i : Instr) (s : State), ∃ r t, exec i s = .next t ∧
    t.input = s.input ∧ t.responses = r :: s.responses ∧
    (t.engine.ST ≠ s.engine.ST → (∃ p, i = .ldst p) ∨ i = .subb ∨ i = .shrow ∨ i = .mixc ∨ (∃ k, i = .ark k) ∨ i = .enc) ∧
    (t.engine.SV ≠ s.engine.SV → (∃ p, i = .ldst p) ∧ t.engine.SV = true) ∧
    (t.engine.KW ≠ s.engine.KW ∨ t.engine.NK ≠ s.engine.NK → ∃ nk q, i = .ldkey nk q) ∧
    (t.engine.KV ≠ s.engine.KV → (∃ nk q, i = .ldkey nk q) ∧ t.engine.KV = true) ∧
    (t.engine.W ≠ s.engine.W → i = .kexp ∨ i = .enc) ∧
    (t.engine.WV ≠ s.engine.WV →
      (i = .kexp ∧ t.engine.WV = true) ∨ (((∃ nk q, i = .ldkey nk q) ∨ i = .enc) ∧ t.engine.WV = false)) ∧
    (t.engine.ERR = r.rc ∨ (i = .rdstat ∧ t.engine.ERR = s.engine.ERR)) ∧
    (r.rc ≠ .ok → t.engine = { s.engine with ERR := r.rc })

/-- R267: `KW`, `NK`, `KV` are unchanged by every step but an `LDKEY` command and the reset event. -/
def Obligations.TheKeyPersists : Prop :=
  ∀ s : State, (∀ rest, s.input ≠ .reset :: rest) →
    (∀ c rest, s.input = .command c :: rest → opField c.cmd ≠ 0x40#8) →
    ∃ t, step s = .next t ∧ t.engine.KW = s.engine.KW ∧ t.engine.NK = s.engine.NK ∧ t.engine.KV = s.engine.KV

/-- R261, R35: what the reset event does in every state, and the values at State.reset that the spec gives: flags,
`NK` and `ERR` 0, `STATUS` 0. The invariants of R28 hold after it, whatever held before. There is no response (R260). The contents of `ST`, `KW`, `W` are left open. -/
def Obligations.ResetClearsTheFlags : Prop :=
  (∀ (s : State) (rest : List Event), s.input = .reset :: rest → ∃ t, step s = .next t ∧
    t.engine.SV = false ∧ t.engine.KV = false ∧ t.engine.WV = false ∧ nkWords t.engine.NK = 0 ∧
    rcBits t.engine.ERR = 0 ∧ status t.engine = 0 ∧ EngineInv t ∧ t.responses = s.responses ∧ t.input = rest) ∧
  (State.reset.engine.SV = false ∧ State.reset.engine.KV = false ∧ State.reset.engine.WV = false ∧
    nkWords State.reset.engine.NK = 0 ∧ rcBits State.reset.engine.ERR = 0 ∧ status State.reset.engine = 0)

/-- R30: every field of `STATUS` with its legal values, and its reserved bits. -/
def Obligations.StatusLayout : Prop :=
  ∀ e : EngineState,
    (status e).getLsbD 0 = e.SV ∧ (status e).getLsbD 1 = e.KV ∧ (status e).getLsbD 2 = e.WV ∧
    (status e).getLsbD 3 = false ∧
    ((status e).extractLsb' 4 4).toNat = nkWords e.NK ∧
    nkWords e.NK ∈ [0, 4, 6, 8] ∧
    (status e).extractLsb' 8 4 = rcBits e.ERR ∧ (rcBits e.ERR).toNat ≤ 7 ∧
    (status e).extractLsb' 12 20 = 0

/-- R34: no response depends on contents that the spec calls unspecified and unobservable. Two states that look the
same to a host step to states that look the same, responses included. -/
def Obligations.NoResponseDependsOnUnspecifiedContents : Prop :=
  ∀ s t : State, sameVisible s t →
    ∃ s' t', step s = .next s' ∧ step t = .next t' ∧ sameVisible s' t'

/-- Only `KEXP` and `ENC` read the key (10_state.md R23): with any other instruction, another key register gives the
same response and, but for `KW`, the same engine. -/
def Obligations.OnlyKexpAndEncReadTheKey : Prop :=
  ∀ (i : Instr) (s : State) (K : Vector Word 8), i ≠ .kexp → i ≠ .enc →
    ∃ t u, exec i s = .next t ∧ exec i { s with engine := { s.engine with KW := K } } = .next u ∧
      t.responses = u.responses ∧ { t.engine with KW := K } = { u.engine with KW := K }

/-! ### Byte order -/

/-- R54, R55, R56: bytes in a word, a block filled column by column and read back, a column as a word. -/
def Obligations.PackingIsBigEndianAndColumnMajor : Prop :=
  (∀ b0 b1 b2 b3 : Byte,
    (wordOfBytes b0 b1 b2 b3).toNat = b0.toNat * 2 ^ 24 + b1.toNat * 2 ^ 16 + b2.toNat * 2 ^ 8 + b3.toNat) ∧
  (∀ (w : Word) (j : Fin 4), (byteOf w j).toNat = w.toNat / 2 ^ (24 - 8 * j.val) % 2 ^ 8) ∧
  (∀ (p : List Byte) (r c : Fin 4), cell (blockOfBytes p) r c = byteAt p (r.val + 4 * c.val)) ∧
  (∀ S : Block, (bytesOfBlock S).length = 16 ∧
    ∀ r c : Fin 4, (bytesOfBlock S)[r.val + 4 * c.val]? = some (cell S r c)) ∧
  (∀ (S : Block) (c r : Fin 4), byteOf (column S c) r = cell S r c) ∧
  (∀ (p : List Byte) (c : Fin 4), column (blockOfBytes p) c =
    wordOfBytes (byteAt p (4 * c.val)) (byteAt p (4 * c.val + 1)) (byteAt p (4 * c.val + 2)) (byteAt p (4 * c.val + 3)))

/-- R60: `LDST p` followed at once by `RDST` returns `DATA = p`, for every 16-byte string and every state. -/
def Obligations.LoadedBlockReadsBack : Prop :=
  ∀ (s : State) (p : List Byte), p.length = 16 → ∃ t u,
    step (issued (encodeCommand (.ldst p)) s) = .next t ∧
    step (issued (encodeCommand .rdst) t) = .next u ∧
    u.responses = { rc := .ok, val := 0, data := p } :: { rc := .ok, val := 0, data := [] } :: s.responses

/-! ### Field arithmetic -/

/-- R116: the two formulations of the product agree on all operand pairs. -/
def Obligations.TwoStageMultiplierAgrees : Prop :=
  ∀ a b : Byte, gfMul a b = gfReduce (polyMult a b)

/-- R117: the laws of the field. -/
def Obligations.FieldLaws : Prop :=
  ∀ a b c : Byte,
    gfAdd a b = gfAdd b a ∧ gfAdd a 0 = a ∧ gfAdd a a = 0 ∧
    gfMul a b = gfMul b a ∧ gfMul a 1 = a ∧ gfMul a 0 = 0 ∧ gfMul 0 a = 0 ∧
    gfAdd (gfAdd a b) c = gfAdd a (gfAdd b c) ∧
    gfMul (gfMul a b) c = gfMul a (gfMul b c) ∧
    gfMul (gfAdd a b) c = gfAdd (gfMul a c) (gfMul b c) ∧
    (gfMul a b = 0 → a = 0 ∨ b = 0)

/-- R114, R118: `xtime` is one reduction step and the product by 0x02; the products by the three constants of the mix
matrix, on either side. -/
def Obligations.ProductsByTheMixConstants : Prop :=
  ∀ v : Byte,
    xtime v = (if v.getLsbD 7 then (v <<< 1) ^^^ 0x1B else v <<< 1) ∧
    xtime v = gfReduce (v.setWidth 15 <<< 1) ∧
    gfMul 0x01 v = v ∧ gfMul 0x02 v = xtime v ∧ gfMul 0x03 v = xtime v ^^^ v ∧
    gfMul v 0x01 = v ∧ gfMul v 0x02 = xtime v ∧ gfMul v 0x03 = xtime v ^^^ v

/-! ### Substitution -/

/-- R132: the substitution is a bijection on bytes with no fixed point and no anti-fixed point. -/
def Obligations.SubstitutionIsAPermutation : Prop :=
  Function.Bijective subByte ∧ (∀ v : Byte, subByte v ≠ v) ∧ (∀ v : Byte, subByte v ≠ v ^^^ 0xFF)

/-- R135: each entry of the table is the affine map of the byte's inverse in the field (0 for 0). -/
def Obligations.SubstitutionIsInverseThenAffine : Prop :=
  ∀ v u : Byte, (v = 0 ∧ u = 0) ∨ (v ≠ 0 ∧ gfMul v u = 0x01) →
    subByte v = u ^^^ u.rotateLeft 1 ^^^ u.rotateLeft 2 ^^^ u.rotateLeft 3 ^^^ u.rotateLeft 4 ^^^ 0x63

/-! ### The transformations -/

/-- R142: `sub_bytes`, cell by cell. -/
def Obligations.SubBytesCellByCell : Prop :=
  ∀ (S : Block) (r c : Fin 4), cell (subBytes S) r c = subByte (cell S r c)

/-- R143: `shift_rows`, cell by cell; row 0 is unchanged, four applications give the state back, it commutes with
`sub_bytes`; the rule's example. -/
def Obligations.ShiftRowsRotatesLeft : Prop :=
  (∀ (S : Block) (r c : Fin 4), cell (shiftRows S) r c = cell S r ⟨(c.val + r.val) % 4, Nat.mod_lt _ (by decide)⟩) ∧
  (∀ (S : Block) (c : Fin 4), cell (shiftRows S) 0 c = cell S 0 c) ∧
  (∀ S : Block, shiftRows (shiftRows (shiftRows (shiftRows S))) = S) ∧
  (∀ S : Block, shiftRows (subBytes S) = subBytes (shiftRows S)) ∧
  bytesOfBlock (shiftRows (blockOfBytes [0x00, 0x01, 0x02, 0x03, 0x04, 0x05, 0x06, 0x07, 0x08, 0x09, 0x0A, 0x0B,
    0x0C, 0x0D, 0x0E, 0x0F])) =
    [0x00, 0x05, 0x0A, 0x0F, 0x04, 0x09, 0x0E, 0x03, 0x08, 0x0D, 0x02, 0x07, 0x0C, 0x01, 0x06, 0x0B]

/-- R144: `mix_columns`, the four rows written out with the field product; a column of four equal bytes is
unchanged; the rule's columns as one state. -/
def Obligations.MixColumnsIsTheMatrixProduct : Prop :=
  (∀ (S : Block) (c : Fin 4),
    cell (mixColumns S) 0 c = gfMul 2 (cell S 0 c) ^^^ gfMul 3 (cell S 1 c) ^^^ gfMul 1 (cell S 2 c) ^^^ gfMul 1 (cell S 3 c) ∧
    cell (mixColumns S) 1 c = gfMul 1 (cell S 0 c) ^^^ gfMul 2 (cell S 1 c) ^^^ gfMul 3 (cell S 2 c) ^^^ gfMul 1 (cell S 3 c) ∧
    cell (mixColumns S) 2 c = gfMul 1 (cell S 0 c) ^^^ gfMul 1 (cell S 1 c) ^^^ gfMul 2 (cell S 2 c) ^^^ gfMul 3 (cell S 3 c) ∧
    cell (mixColumns S) 3 c = gfMul 3 (cell S 0 c) ^^^ gfMul 1 (cell S 1 c) ^^^ gfMul 1 (cell S 2 c) ^^^ gfMul 2 (cell S 3 c)) ∧
  (∀ (S : Block) (c : Fin 4), (∀ r, cell S r c = cell S 0 c) → ∀ r, cell (mixColumns S) r c = cell S r c) ∧
  bytesOfBlock (mixColumns (blockOfBytes [0xDB, 0x13, 0x53, 0x45, 0xF2, 0x0A, 0x22, 0x5C, 0x01, 0x01, 0x01, 0x01,
    0xD4, 0xBF, 0x5D, 0x30])) =
    [0x8E, 0x4D, 0xA1, 0xBC, 0x9F, 0xDC, 0x58, 0x9D, 0x01, 0x01, 0x01, 0x01, 0x04, 0x66, 0x81, 0xE5]

/-- R145: `add_round_key`, column by column as words, cell by cell and in the byte view; it is its own inverse. -/
def Obligations.AddRoundKeyXorsTheColumns : Prop :=
  (∀ (S : Block) (K : RoundKey) (c : Fin 4), column (addRoundKey S K) c = column S c ^^^ K[c.val]) ∧
  (∀ (S : Block) (K : RoundKey) (r c : Fin 4), cell (addRoundKey S K) r c = cell S r c ^^^ byteOf K[c.val] r) ∧
  (∀ (S : Block) (K : RoundKey) (n : Fin 16),
    blockByte (addRoundKey S K) n = blockByte S n ^^^ roundKeyByte K n) ∧
  (∀ (S : Block) (K : RoundKey), addRoundKey (addRoundKey S K) K = S)

/-- `mix_columns` applied four times gives the state back (95_test_vectors.md section 4, notes; derived there from
42_state_ops.md R144). -/
def Obligations.MixColumnsFourTimesIsTheIdentity : Prop :=
  ∀ S : Block, mixColumns (mixColumns (mixColumns (mixColumns S))) = S

/-! ### The key schedule -/

/-- R133, R170: `SubWord` substitutes each byte in place; `RotWord` is a rotate left by 8 bits. -/
def Obligations.WordSubstitutionAndRotation : Prop :=
  (∀ (w : Word) (j : Fin 4), byteOf (subWord w) j = subByte (byteOf w j)) ∧
  (∀ w : Word, (rotWord w).toNat = w.toNat * 2 ^ 8 % 2 ^ 32 + w.toNat / 2 ^ 24)

/-- R172: `RCON` has ten entries, entry 0 is 0x01, and each next entry is the product of 0x02 with the one before;
`RconWord(k)` is that byte followed by three zero bytes. -/
def Obligations.RoundConstantsArePowersOfTwo : Prop :=
  rcon.length = 10 ∧ byteAt rcon 0 = 0x01 ∧
  (∀ k : Fin 9, byteAt rcon (k.val + 1) = gfMul 0x02 (byteAt rcon k.val)) ∧
  (∀ k : Fin 10, rconWord k.val = (byteAt rcon k.val).setWidth 32 <<< 24)

/-- R175: the length of the expanded schedule, its first `Nk` words, and the three branches for every later
word. -/
def Obligations.KeyExpansionRecursion : Prop :=
  ∀ (KW : Vector Word 8) (Nk : Nat), Nk ∈ [4, 6, 8] →
    let w : Nat → Word := fun i => (keyExpansion KW Nk).getD i 0
    (keyExpansion KW Nk).length = 4 * (Nk + 7) ∧
    (∀ i : Fin 8, i.val < Nk → w i.val = KW[i.val]) ∧
    (∀ i, Nk ≤ i → i < 4 * (Nk + 7) →
      (i % Nk = 0 → w i = subWord (rotWord (w (i - 1))) ^^^ rconWord (i / Nk - 1) ^^^ w (i - Nk)) ∧
      (i % Nk ≠ 0 ∧ Nk = 8 ∧ (i - 4) % 8 = 0 → w i = subWord (w (i - 1)) ^^^ w (i - Nk)) ∧
      (i % Nk ≠ 0 ∧ ¬ (Nk = 8 ∧ (i - 4) % 8 = 0) → w i = w (i - 1) ^^^ w (i - Nk)))

/-! ### Encryption -/

/-- R202: the known answer for the 128-bit key, and those of 95_test_vectors.md V-D30, V-D31 for the other two key
sizes. -/
def Obligations.KnownAnswers : Prop :=
  bytesOfBlock (encrypt (blockOfBytes samplePlaintext) (keyOfBytes (countingBytes 16)) 4) =
    [0x69, 0xC4, 0xE0, 0xD8, 0x6A, 0x7B, 0x04, 0x30, 0xD8, 0xCD, 0xB7, 0x80, 0x70, 0xB4, 0xC5, 0x5A] ∧
  bytesOfBlock (encrypt (blockOfBytes samplePlaintext) (keyOfBytes (countingBytes 24)) 6) =
    [0xDD, 0xA9, 0x7C, 0xA4, 0x86, 0x4C, 0xDF, 0xE0, 0x6E, 0xAF, 0x70, 0xA0, 0xEC, 0x0D, 0x71, 0x91] ∧
  bytesOfBlock (encrypt (blockOfBytes samplePlaintext) (keyOfBytes (countingBytes 32)) 8) =
    [0x8E, 0xA2, 0xB7, 0xCA, 0x51, 0x67, 0x45, 0xBF, 0xEA, 0xFC, 0x49, 0x90, 0x4B, 0x49, 0x60, 0x89]

/-- The transitions T0 to T5 of the source's state machine (44_block_encrypt.md R203), `Nr + 3` of them, end in
`(Ciphertext, Nr)` with the value of `Encrypt`; after T0, T1, T2 and `j` times T3, it is in `(Rounds, j + 1)`. -/
def Obligations.SequencerComputesEncrypt : Prop :=
  ∀ (S : Block) (KW : Vector Word 8) (Nk : Nat), Nk ∈ [4, 6, 8] →
    let w := keyExpansion KW Nk
    let Nr := Nk + 6
    (seqRun w Nr 1 (seqStart S)) = ⟨.afterInitialRound, 0, addRoundKey S (roundKeyOf w 0)⟩ ∧
    (∀ j, j ≤ Nr - 2 → (seqRun w Nr (2 + j) (seqStart S)).PH = .rounds ∧
      (seqRun w Nr (2 + j) (seqStart S)).RN = j + 1) ∧
    (seqRun w Nr (Nr + 1) (seqStart S)).PH = .finalRound ∧
    seqRun w Nr (Nr + 2) (seqStart S) = ⟨.ciphertext, Nr, encrypt S KW Nk⟩

/-- R204, R271 (`ENC`): encryption is the list of elementary operations applied in order, and that list has `Nr`
`sub_bytes`, `Nr` `shift_rows`, `Nr - 1` `mix_columns`, and the round keys 0 to `Nr`, each once, in order. -/
def Obligations.OperationCountsOfAnEncryption : Prop :=
  ∀ Nk : Nat, Nk ∈ [4, 6, 8] →
    (∀ (S : Block) (KW : Vector Word 8),
      encrypt S KW Nk = (encOps (Nk + 6)).foldl (applyOp (keyExpansion KW Nk)) S) ∧
    (encOps (Nk + 6)).count .subBytes = Nk + 6 ∧
    (encOps (Nk + 6)).count .shiftRows = Nk + 6 ∧
    (encOps (Nk + 6)).count .mixColumns = Nk + 5 ∧
    (encOps (Nk + 6)).filterMap (fun o => match o with | .addRoundKey k => some k | _ => none) =
      List.range (Nk + 7)

/-- R206: from a state with `SV = KV = 1`, the elementary commands in sequence leave the same `ST` as one `ENC`; they
differ in `WV` and in the number of responses. The invariants of R28 rule out states in which `KV = 1` without a key
length. -/
def Obligations.EncEqualsTheElementaryCommands : Prop :=
  ∀ s : State, EngineInv s → s.engine.SV = true → s.engine.KV = true →
    let Nr := nkWords s.engine.NK + 6
    (elementaryCommands Nr).length = 1 + 1 + 4 * (Nr - 1) + 3 ∧
    ∃ t u,
      Host.Core.run core (1 + 1 + 4 * (Nr - 1) + 3) { s with input := commands (elementaryCommands Nr) } = .next t ∧
      step { s with input := commands [.enc] } = .next u ∧
      t.engine.ST = u.engine.ST ∧ t.engine.WV = true ∧ u.engine.WV = false ∧
      t.engine.SV = u.engine.SV ∧ t.engine.KW = u.engine.KW ∧ t.engine.NK = u.engine.NK ∧
      t.engine.KV = u.engine.KV ∧ t.engine.ERR = u.engine.ERR ∧
      t.responses = List.replicate (1 + 1 + 4 * (Nr - 1) + 3) { rc := .ok, val := 0, data := [] } ++ s.responses ∧
      u.responses = { rc := .ok, val := 0, data := [] } :: s.responses

/-- The pseudo-instruction `ENCRYPT nk, q, p` (30_encoding.md R91) is the source's contract
`encrypt(p, q) = block(Encrypt(state(p), key(q), length(q)/4))` (44_block_encrypt.md R200), from every state. -/
def Obligations.EncryptPseudoInstructionMeetsTheContract : Prop :=
  ∀ (s : State) (nk : Byte) (q p : List Byte), nk.toNat ∈ [4, 6, 8] → q.length = 4 * nk.toNat → p.length = 16 →
    ∃ t, Host.Core.run core 4 { s with input := commands (pseudoEncrypt nk q p) } = .next t ∧
      t.responses =
        { rc := .ok, val := 0, data := bytesOfBlock (encrypt (blockOfBytes p) (keyOfBytes q) (q.length / 4)) } ::
          (List.replicate 3 { rc := .ok, val := 0, data := [] } ++ s.responses)

/-- `Encrypt` depends on the block, the `NK` key words and `NK` only, and for a fixed key it is a bijection on blocks
(44_block_encrypt.md R207). -/
def Obligations.EncryptIsABijectionOfTheBlock : Prop :=
  ∀ Nk : Nat, Nk ∈ [4, 6, 8] →
    (∀ (S : Block) (K L : Vector Word 8), (∀ j : Fin 8, j.val < Nk → K[j.val] = L[j.val]) →
      encrypt S K Nk = encrypt S L Nk) ∧
    (∀ K : Vector Word 8, Function.Bijective fun S => encrypt S K Nk)
end

