-- ==== Sys2Proof/Laws/Encoding.lean ====
section
/-!
SUPPORT. Lemmas of the command word's fields and of the port's transfer.
-/

namespace Sys2Proof

@[simp] theorem opField_cmdWord (op a b len : Byte) : opField (cmdWord op a b len) = op := by
  apply BitVec.eq_of_getLsbD_eq; intro i hi
  simp [opField, cmdWord]; grind

@[simp] theorem aField_cmdWord (op a b len : Byte) : aField (cmdWord op a b len) = a := by
  apply BitVec.eq_of_getLsbD_eq; intro i hi
  simp [aField, cmdWord]; grind

@[simp] theorem bField_cmdWord (op a b len : Byte) : bField (cmdWord op a b len) = b := by
  apply BitVec.eq_of_getLsbD_eq; intro i hi
  simp [bField, cmdWord]; grind

@[simp] theorem lenField_cmdWord (op a b len : Byte) : lenField (cmdWord op a b len) = len := by
  apply BitVec.eq_of_getLsbD_eq; intro i hi
  simp [lenField, cmdWord]; grind

@[simp] theorem transfer_cmd (w : Word) (bytes : List Byte) : (transfer w bytes).cmd = w := rfl

/-- The payload has the length that the word declares (30_encoding.md R80). -/
theorem command_len (c : Command) : c.pl.length = (lenField c.cmd).toNat := c.len

/-- A transfer of exactly the declared number of bytes carries them. -/
theorem transfer_pl (w : Word) (bytes : List Byte) (h : bytes.length = (lenField w).toNat) :
    (transfer w bytes).pl = bytes := by
  apply List.ext_getElem
  · simp [transfer, h, lenField]
  · intro i h1 h2
    simp [transfer, h2]

/-- Two commands with the same word and payload are equal. -/
theorem command_ext {c d : Command} (hw : c.cmd = d.cmd) (hp : c.pl = d.pl) : c = d := by
  cases c; cases d; simp_all

/-- The word made of its own four fields is the word. -/
theorem cmdWord_fields (w : Word) : cmdWord (opField w) (aField w) (bField w) (lenField w) = w := by
  apply BitVec.eq_of_getLsbD_eq; intro i hi
  simp [cmdWord, opField, aField, bField, lenField]
  grind

/-! ### The decoder by opcode (30_encoding.md R84) -/

theorem decode_gfadd {c : Command} (h : opField c.cmd = 0x10#8) : decode c = decodeAB c .gfadd := by
  simp [decode, h]

theorem decode_gfmul {c : Command} (h : opField c.cmd = 0x11#8) : decode c = decodeAB c .gfmul := by
  simp [decode, h]

theorem decode_sbox {c : Command} (h : opField c.cmd = 0x20#8) : decode c = decodeA c .sbox := by
  simp [decode, h]

theorem decode_ldst {c : Command} (h : opField c.cmd = 0x30#8) : decode c = decodeP c .ldst := by
  simp [decode, h]

theorem decode_rdst {c : Command} (h : opField c.cmd = 0x31#8) : decode c = decodeZ c .rdst := by
  simp [decode, h]

theorem decode_subb {c : Command} (h : opField c.cmd = 0x32#8) : decode c = decodeZ c .subb := by
  simp [decode, h]

theorem decode_shrow {c : Command} (h : opField c.cmd = 0x33#8) : decode c = decodeZ c .shrow := by
  simp [decode, h]

theorem decode_mixc {c : Command} (h : opField c.cmd = 0x34#8) : decode c = decodeZ c .mixc := by
  simp [decode, h]

theorem decode_ark {c : Command} (h : opField c.cmd = 0x35#8) : decode c = decodeA c .ark := by
  simp [decode, h]

theorem decode_ldkey {c : Command} (h : opField c.cmd = 0x40#8) : decode c = decodeAP c .ldkey := by
  simp [decode, h]

theorem decode_kexp {c : Command} (h : opField c.cmd = 0x41#8) : decode c = decodeZ c .kexp := by
  simp [decode, h]

theorem decode_rdrk {c : Command} (h : opField c.cmd = 0x42#8) : decode c = decodeA c .rdrk := by
  simp [decode, h]

theorem decode_enc {c : Command} (h : opField c.cmd = 0x50#8) : decode c = decodeZ c .enc := by
  simp [decode, h]

theorem decode_rdstat {c : Command} (h : opField c.cmd = 0x60#8) : decode c = decodeZ c .rdstat := by
  simp [decode, h]

theorem decode_unknown {c : Command}
    (h : opField c.cmd ∉ [0x10#8, 0x11#8, 0x20#8, 0x30#8, 0x31#8, 0x32#8, 0x33#8, 0x34#8, 0x35#8, 0x40#8, 0x41#8, 0x42#8, 0x50#8, 0x60#8]) :
    decode c = .error .eIllegal := by
  simp only [List.mem_cons, List.not_mem_nil, or_false, not_or] at h
  simp [decode, h]

/-- Everything the decoder can do, by opcode. -/
theorem decode_cases (c : Command) :
    (opField c.cmd = 0x10#8 ∧ decode c = decodeAB c .gfadd) ∨
    (opField c.cmd = 0x11#8 ∧ decode c = decodeAB c .gfmul) ∨
    (opField c.cmd = 0x20#8 ∧ decode c = decodeA c .sbox) ∨
    (opField c.cmd = 0x30#8 ∧ decode c = decodeP c .ldst) ∨
    (opField c.cmd = 0x31#8 ∧ decode c = decodeZ c .rdst) ∨
    (opField c.cmd = 0x32#8 ∧ decode c = decodeZ c .subb) ∨
    (opField c.cmd = 0x33#8 ∧ decode c = decodeZ c .shrow) ∨
    (opField c.cmd = 0x34#8 ∧ decode c = decodeZ c .mixc) ∨
    (opField c.cmd = 0x35#8 ∧ decode c = decodeA c .ark) ∨
    (opField c.cmd = 0x40#8 ∧ decode c = decodeAP c .ldkey) ∨
    (opField c.cmd = 0x41#8 ∧ decode c = decodeZ c .kexp) ∨
    (opField c.cmd = 0x42#8 ∧ decode c = decodeA c .rdrk) ∨
    (opField c.cmd = 0x50#8 ∧ decode c = decodeZ c .enc) ∨
    (opField c.cmd = 0x60#8 ∧ decode c = decodeZ c .rdstat) ∨
    (opField c.cmd ∉ [0x10#8, 0x11#8, 0x20#8, 0x30#8, 0x31#8, 0x32#8, 0x33#8, 0x34#8, 0x35#8, 0x40#8, 0x41#8, 0x42#8, 0x50#8, 0x60#8] ∧
      decode c = .error .eIllegal) := by
  by_cases hm : opField c.cmd ∈
      [0x10#8, 0x11#8, 0x20#8, 0x30#8, 0x31#8, 0x32#8, 0x33#8, 0x34#8, 0x35#8, 0x40#8, 0x41#8, 0x42#8, 0x50#8, 0x60#8]
  · simp only [List.mem_cons, List.not_mem_nil, or_false] at hm
    rcases hm with h | h | h | h | h | h | h | h | h | h | h | h | h | h <;> simp [decode, h]
  · simp [decode_unknown hm, hm]

/-! ### The formats (30_encoding.md R82) -/

/-- What format `Z` can answer. -/
theorem decodeZ_cases (c : Command) (i : Instr) :
    ((aField c.cmd ≠ 0#8 ∨ bField c.cmd ≠ 0#8) ∧ decodeZ c i = .error .eIllegal) ∨
    (aField c.cmd = 0#8 ∧ bField c.cmd = 0#8 ∧ lenField c.cmd ≠ 0#8 ∧ decodeZ c i = .error .eLen) ∨
    (aField c.cmd = 0#8 ∧ bField c.cmd = 0#8 ∧ lenField c.cmd = 0#8 ∧ decodeZ c i = .ok i) := by
  unfold decodeZ; split <;> [skip; split] <;> simp_all

/-- What format `A` can answer. -/
theorem decodeA_cases (c : Command) (i : Byte → Instr) :
    (bField c.cmd ≠ 0#8 ∧ decodeA c i = .error .eIllegal) ∨
    (bField c.cmd = 0#8 ∧ lenField c.cmd ≠ 0#8 ∧ decodeA c i = .error .eLen) ∨
    (bField c.cmd = 0#8 ∧ lenField c.cmd = 0#8 ∧ decodeA c i = .ok (i (aField c.cmd))) := by
  unfold decodeA; split <;> [skip; split] <;> simp_all

/-- What format `AB` can answer. -/
theorem decodeAB_cases (c : Command) (i : Byte → Byte → Instr) :
    (lenField c.cmd ≠ 0#8 ∧ decodeAB c i = .error .eLen) ∨
    (lenField c.cmd = 0#8 ∧ decodeAB c i = .ok (i (aField c.cmd) (bField c.cmd))) := by
  unfold decodeAB; split <;> simp_all

/-- What format `P` can answer. -/
theorem decodeP_cases (c : Command) (i : List Byte → Instr) :
    ((aField c.cmd ≠ 0#8 ∨ bField c.cmd ≠ 0#8) ∧ decodeP c i = .error .eIllegal) ∨
    (aField c.cmd = 0#8 ∧ bField c.cmd = 0#8 ∧ decodeP c i = .ok (i c.pl)) := by
  unfold decodeP; split <;> simp_all

/-- What format `AP` can answer. -/
theorem decodeAP_cases (c : Command) (i : Byte → List Byte → Instr) :
    (bField c.cmd ≠ 0#8 ∧ decodeAP c i = .error .eIllegal) ∨
    (bField c.cmd = 0#8 ∧ decodeAP c i = .ok (i (aField c.cmd) c.pl)) := by
  unfold decodeAP; split <;> simp_all

end Sys2Proof
end

