-- ==== Sys2Proof/Laws/State.lean ====
section
/-!
SUPPORT. One lemma per field per state update: what the update makes of the field.
-/

namespace Sys2Proof.Machine

/-! ### `setErr` -/

@[simp] theorem setErr_ST (code : RejectCode) (s : State) : (setErr code s).engine.ST = s.engine.ST := rfl
@[simp] theorem setErr_SV (code : RejectCode) (s : State) : (setErr code s).engine.SV = s.engine.SV := rfl
@[simp] theorem setErr_KW (code : RejectCode) (s : State) : (setErr code s).engine.KW = s.engine.KW := rfl
@[simp] theorem setErr_NK (code : RejectCode) (s : State) : (setErr code s).engine.NK = s.engine.NK := rfl
@[simp] theorem setErr_KV (code : RejectCode) (s : State) : (setErr code s).engine.KV = s.engine.KV := rfl
@[simp] theorem setErr_W (code : RejectCode) (s : State) : (setErr code s).engine.W = s.engine.W := rfl
@[simp] theorem setErr_WV (code : RejectCode) (s : State) : (setErr code s).engine.WV = s.engine.WV := rfl
@[simp] theorem setErr_ERR (code : RejectCode) (s : State) : (setErr code s).engine.ERR = code := rfl
@[simp] theorem setErr_input (code : RejectCode) (s : State) : (setErr code s).input = s.input := rfl
@[simp] theorem setErr_responses (code : RejectCode) (s : State) : (setErr code s).responses = s.responses := rfl
@[simp] theorem setErr_freeCtr (code : RejectCode) (s : State) : (setErr code s).freeCtr = s.freeCtr := rfl

/-! ### `respond` -/

@[simp] theorem respond_ST (r : Response) (s : State) : (respond r s).engine.ST = s.engine.ST := rfl
@[simp] theorem respond_SV (r : Response) (s : State) : (respond r s).engine.SV = s.engine.SV := rfl
@[simp] theorem respond_KW (r : Response) (s : State) : (respond r s).engine.KW = s.engine.KW := rfl
@[simp] theorem respond_NK (r : Response) (s : State) : (respond r s).engine.NK = s.engine.NK := rfl
@[simp] theorem respond_KV (r : Response) (s : State) : (respond r s).engine.KV = s.engine.KV := rfl
@[simp] theorem respond_W (r : Response) (s : State) : (respond r s).engine.W = s.engine.W := rfl
@[simp] theorem respond_WV (r : Response) (s : State) : (respond r s).engine.WV = s.engine.WV := rfl
@[simp] theorem respond_ERR (r : Response) (s : State) : (respond r s).engine.ERR = s.engine.ERR := rfl
@[simp] theorem respond_input (r : Response) (s : State) : (respond r s).input = s.input := rfl
@[simp] theorem respond_responses (r : Response) (s : State) : (respond r s).responses = r :: s.responses := rfl
@[simp] theorem respond_freeCtr (r : Response) (s : State) : (respond r s).freeCtr = s.freeCtr := rfl

/-! ### `setBlock` -/

@[simp] theorem setBlock_ST (S : Block) (s : State) : (setBlock S s).engine.ST = S := rfl
@[simp] theorem setBlock_SV (S : Block) (s : State) : (setBlock S s).engine.SV = s.engine.SV := rfl
@[simp] theorem setBlock_KW (S : Block) (s : State) : (setBlock S s).engine.KW = s.engine.KW := rfl
@[simp] theorem setBlock_NK (S : Block) (s : State) : (setBlock S s).engine.NK = s.engine.NK := rfl
@[simp] theorem setBlock_KV (S : Block) (s : State) : (setBlock S s).engine.KV = s.engine.KV := rfl
@[simp] theorem setBlock_W (S : Block) (s : State) : (setBlock S s).engine.W = s.engine.W := rfl
@[simp] theorem setBlock_WV (S : Block) (s : State) : (setBlock S s).engine.WV = s.engine.WV := rfl
@[simp] theorem setBlock_ERR (S : Block) (s : State) : (setBlock S s).engine.ERR = s.engine.ERR := rfl
@[simp] theorem setBlock_input (S : Block) (s : State) : (setBlock S s).input = s.input := rfl
@[simp] theorem setBlock_responses (S : Block) (s : State) : (setBlock S s).responses = s.responses := rfl
@[simp] theorem setBlock_freeCtr (S : Block) (s : State) : (setBlock S s).freeCtr = s.freeCtr := rfl

/-! ### `loadBlock` -/

@[simp] theorem loadBlock_ST (S : Block) (s : State) : (loadBlock S s).engine.ST = S := rfl
@[simp] theorem loadBlock_SV (S : Block) (s : State) : (loadBlock S s).engine.SV = true := rfl
@[simp] theorem loadBlock_KW (S : Block) (s : State) : (loadBlock S s).engine.KW = s.engine.KW := rfl
@[simp] theorem loadBlock_NK (S : Block) (s : State) : (loadBlock S s).engine.NK = s.engine.NK := rfl
@[simp] theorem loadBlock_KV (S : Block) (s : State) : (loadBlock S s).engine.KV = s.engine.KV := rfl
@[simp] theorem loadBlock_W (S : Block) (s : State) : (loadBlock S s).engine.W = s.engine.W := rfl
@[simp] theorem loadBlock_WV (S : Block) (s : State) : (loadBlock S s).engine.WV = s.engine.WV := rfl
@[simp] theorem loadBlock_ERR (S : Block) (s : State) : (loadBlock S s).engine.ERR = s.engine.ERR := rfl
@[simp] theorem loadBlock_input (S : Block) (s : State) : (loadBlock S s).input = s.input := rfl
@[simp] theorem loadBlock_responses (S : Block) (s : State) : (loadBlock S s).responses = s.responses := rfl
@[simp] theorem loadBlock_freeCtr (S : Block) (s : State) : (loadBlock S s).freeCtr = s.freeCtr := rfl

/-! ### `loadKey` -/

@[simp] theorem loadKey_ST (nk : KeyLen) (q : List Byte) (s : State) : (loadKey nk q s).engine.ST = s.engine.ST := rfl
@[simp] theorem loadKey_SV (nk : KeyLen) (q : List Byte) (s : State) : (loadKey nk q s).engine.SV = s.engine.SV := rfl
@[simp] theorem loadKey_NK (nk : KeyLen) (q : List Byte) (s : State) : (loadKey nk q s).engine.NK = nk := rfl
@[simp] theorem loadKey_KV (nk : KeyLen) (q : List Byte) (s : State) : (loadKey nk q s).engine.KV = true := rfl
@[simp] theorem loadKey_W (nk : KeyLen) (q : List Byte) (s : State) : (loadKey nk q s).engine.W = s.engine.W := rfl
@[simp] theorem loadKey_WV (nk : KeyLen) (q : List Byte) (s : State) : (loadKey nk q s).engine.WV = false := rfl
@[simp] theorem loadKey_ERR (nk : KeyLen) (q : List Byte) (s : State) : (loadKey nk q s).engine.ERR = s.engine.ERR := rfl
@[simp] theorem loadKey_input (nk : KeyLen) (q : List Byte) (s : State) : (loadKey nk q s).input = s.input := rfl
@[simp] theorem loadKey_responses (nk : KeyLen) (q : List Byte) (s : State) : (loadKey nk q s).responses = s.responses := rfl
@[simp] theorem loadKey_freeCtr (nk : KeyLen) (q : List Byte) (s : State) : (loadKey nk q s).freeCtr = s.freeCtr + 1 := rfl

/-! ### `storeSchedule` -/

@[simp] theorem storeSchedule_ST (w : List Word) (s : State) : (storeSchedule w s).engine.ST = s.engine.ST := rfl
@[simp] theorem storeSchedule_SV (w : List Word) (s : State) : (storeSchedule w s).engine.SV = s.engine.SV := rfl
@[simp] theorem storeSchedule_KW (w : List Word) (s : State) : (storeSchedule w s).engine.KW = s.engine.KW := rfl
@[simp] theorem storeSchedule_NK (w : List Word) (s : State) : (storeSchedule w s).engine.NK = s.engine.NK := rfl
@[simp] theorem storeSchedule_KV (w : List Word) (s : State) : (storeSchedule w s).engine.KV = s.engine.KV := rfl
@[simp] theorem storeSchedule_WV (w : List Word) (s : State) : (storeSchedule w s).engine.WV = true := rfl
@[simp] theorem storeSchedule_ERR (w : List Word) (s : State) : (storeSchedule w s).engine.ERR = s.engine.ERR := rfl
@[simp] theorem storeSchedule_input (w : List Word) (s : State) : (storeSchedule w s).input = s.input := rfl
@[simp] theorem storeSchedule_responses (w : List Word) (s : State) : (storeSchedule w s).responses = s.responses := rfl
@[simp] theorem storeSchedule_freeCtr (w : List Word) (s : State) : (storeSchedule w s).freeCtr = s.freeCtr + 1 := rfl

/-! ### `discardSchedule` -/

@[simp] theorem discardSchedule_ST (s : State) : (discardSchedule s).engine.ST = s.engine.ST := rfl
@[simp] theorem discardSchedule_SV (s : State) : (discardSchedule s).engine.SV = s.engine.SV := rfl
@[simp] theorem discardSchedule_KW (s : State) : (discardSchedule s).engine.KW = s.engine.KW := rfl
@[simp] theorem discardSchedule_NK (s : State) : (discardSchedule s).engine.NK = s.engine.NK := rfl
@[simp] theorem discardSchedule_KV (s : State) : (discardSchedule s).engine.KV = s.engine.KV := rfl
@[simp] theorem discardSchedule_WV (s : State) : (discardSchedule s).engine.WV = false := rfl
@[simp] theorem discardSchedule_ERR (s : State) : (discardSchedule s).engine.ERR = s.engine.ERR := rfl
@[simp] theorem discardSchedule_input (s : State) : (discardSchedule s).input = s.input := rfl
@[simp] theorem discardSchedule_responses (s : State) : (discardSchedule s).responses = s.responses := rfl
@[simp] theorem discardSchedule_freeCtr (s : State) : (discardSchedule s).freeCtr = s.freeCtr + 1 := rfl

/-! ### `resetEngine` -/

@[simp] theorem resetEngine_SV (s : State) : (resetEngine s).engine.SV = false := rfl
@[simp] theorem resetEngine_NK (s : State) : (resetEngine s).engine.NK = .noKey := rfl
@[simp] theorem resetEngine_KV (s : State) : (resetEngine s).engine.KV = false := rfl
@[simp] theorem resetEngine_WV (s : State) : (resetEngine s).engine.WV = false := rfl
@[simp] theorem resetEngine_ERR (s : State) : (resetEngine s).engine.ERR = .ok := rfl
@[simp] theorem resetEngine_input (s : State) : (resetEngine s).input = s.input := rfl
@[simp] theorem resetEngine_responses (s : State) : (resetEngine s).responses = s.responses := rfl
@[simp] theorem resetEngine_freeCtr (s : State) : (resetEngine s).freeCtr = s.freeCtr + 1 := rfl

/-! ### `issue` -/

@[simp] theorem issue_ST (c : Command) (s : State) : (issue c s).engine.ST = s.engine.ST := rfl
@[simp] theorem issue_SV (c : Command) (s : State) : (issue c s).engine.SV = s.engine.SV := rfl
@[simp] theorem issue_KW (c : Command) (s : State) : (issue c s).engine.KW = s.engine.KW := rfl
@[simp] theorem issue_NK (c : Command) (s : State) : (issue c s).engine.NK = s.engine.NK := rfl
@[simp] theorem issue_KV (c : Command) (s : State) : (issue c s).engine.KV = s.engine.KV := rfl
@[simp] theorem issue_W (c : Command) (s : State) : (issue c s).engine.W = s.engine.W := rfl
@[simp] theorem issue_WV (c : Command) (s : State) : (issue c s).engine.WV = s.engine.WV := rfl
@[simp] theorem issue_ERR (c : Command) (s : State) : (issue c s).engine.ERR = s.engine.ERR := rfl
@[simp] theorem issue_input (c : Command) (s : State) : (issue c s).input = .command c :: s.input := rfl
@[simp] theorem issue_responses (c : Command) (s : State) : (issue c s).responses = s.responses := rfl
@[simp] theorem issue_freeCtr (c : Command) (s : State) : (issue c s).freeCtr = s.freeCtr := rfl

/-! ### The contents that are partly unspecified: their specified part -/

@[simp] theorem loadKey_KW_of_lt (nk : KeyLen) (q : List Byte) (s : State) (j : Nat) (h : j < 8)
    (hj : j < nkWords nk) : (loadKey nk q s).engine.KW[j] = keyWord q j := by
  simp [loadKey, keyStore, hj]

theorem storeSchedule_W (w : List Word) (s : State) (i : Nat) (h : i < 60) :
    (storeSchedule w s).engine.W[i] = w.getD i (Config.freeWord s.freeCtr (8 + i)) := by
  simp [storeSchedule, scheduleStore]

theorem storeSchedule_W_of_lt (w : List Word) (s : State) (i : Nat) (h : i < 60) (hw : i < w.length) :
    (storeSchedule w s).engine.W[i] = w[i] := by
  simp [storeSchedule, scheduleStore, hw]

/-! ### The reset state -/

@[simp] theorem reset_SV : State.reset.engine.SV = false := rfl
@[simp] theorem reset_NK : State.reset.engine.NK = .noKey := rfl
@[simp] theorem reset_KV : State.reset.engine.KV = false := rfl
@[simp] theorem reset_WV : State.reset.engine.WV = false := rfl
@[simp] theorem reset_ERR : State.reset.engine.ERR = .ok := rfl
@[simp] theorem reset_input : State.reset.input = [] := rfl
@[simp] theorem reset_responses : State.reset.responses = [] := rfl

end Sys2Proof.Machine
end

