-- ==== Sys2Proof/Laws/Operands.lean ====
section
/-!
SUPPORT. Lemmas of the byte, word, block, key and round-key accessors.
-/

namespace Sys2Proof.Machine

/-! ### Blocks -/

@[simp] theorem cell_mkBlock (f : Fin 4 → Fin 4 → Byte) (r c : Fin 4) : cell (mkBlock f) r c = f r c := by
  simp [cell, mkBlock]

/-- Two blocks with the same cells are equal. -/
theorem block_ext {S T : Block} (h : ∀ r c, cell S r c = cell T r c) : S = T := by
  apply Vector.ext
  intro r hr
  apply Vector.ext
  intro c hc
  exact h ⟨r, hr⟩ ⟨c, hc⟩

@[simp] theorem mkBlock_cell (S : Block) : (mkBlock fun r c => cell S r c) = S :=
  block_ext fun r c => by simp

@[simp] theorem cell_blockOfBytes (p : List Byte) (r c : Fin 4) :
    cell (blockOfBytes p) r c = byteAt p (r.val + 4 * c.val) := by
  simp [blockOfBytes]

@[simp] theorem bytesOfBlock_length (S : Block) : (bytesOfBlock S).length = 16 := by
  simp [bytesOfBlock]

@[simp] theorem bytesOfRoundKey_length (K : RoundKey) : (bytesOfRoundKey K).length = 16 := by
  simp [bytesOfRoundKey]

/-- Where a cell stands in the bytes read out (20_memory.md R55). -/
theorem bytesOfBlock_get (S : Block) (r c : Fin 4) : (bytesOfBlock S)[r.val + 4 * c.val]? = some (cell S r c) := by
  have hr := r.isLt
  have hc := c.isLt
  have h1 : (r.val + 4 * c.val) % 4 = r.val := by omega
  have h2 : (r.val + 4 * c.val) / 4 = c.val := by omega
  rw [bytesOfBlock, List.getElem?_ofFn, dif_pos (by omega)]
  simp [blockByte, h1, h2]

/-- Where a byte of a round key stands in the bytes read out (20_memory.md R58). -/
theorem bytesOfRoundKey_get (K : RoundKey) (c j : Fin 4) :
    (bytesOfRoundKey K)[4 * c.val + j.val]? = some (byteOf K[c.val] j) := by
  have hr := j.isLt
  have hc := c.isLt
  have h1 : (4 * c.val + j.val) % 4 = j.val := by omega
  have h2 : (4 * c.val + j.val) / 4 = c.val := by omega
  rw [bytesOfRoundKey, List.getElem?_ofFn, dif_pos (by omega)]
  simp [roundKeyByte, h1, h2]

/-! ### Words -/

@[simp] theorem byteOf_wordOfBytes (b0 b1 b2 b3 : Byte) (j : Fin 4) :
    byteOf (wordOfBytes b0 b1 b2 b3) j = #v[b0, b1, b2, b3][j.val] := by
  fin_cases j <;> · apply BitVec.eq_of_getLsbD_eq; intro i hi; simp [byteOf, wordOfBytes]; grind

/-- Two words with the same four bytes are equal. -/
theorem word_ext {v w : Word} (h : ∀ j, byteOf v j = byteOf w j) : v = w := by
  apply BitVec.eq_of_getLsbD_eq
  intro i hi
  have key : ∀ j : Fin 4, ∀ k, k < 8 → v.getLsbD (24 - 8 * j.val + k) = w.getLsbD (24 - 8 * j.val + k) := by
    intro j k hk
    have hb := congrArg (fun b => BitVec.getLsbD b k) (h j)
    simpa [byteOf, hk] using hb
  have := key ⟨3 - i / 8, by omega⟩ (i % 8) (Nat.mod_lt _ (by decide))
  have e : 24 - 8 * (3 - i / 8) + i % 8 = i := by omega
  simpa [e] using this

/-! ### Keys -/

theorem nkWords_le (nk : KeyLen) : nkWords nk ≤ 8 := by cases nk <;> decide

/-- The key lengths an `A` operand can name (30_encoding.md R86). -/
theorem keyLenOf_some {a : Byte} {nk : KeyLen} (h : keyLenOf a = some nk) :
    (a = 4#8 ∧ nk = .nk4) ∨ (a = 6#8 ∧ nk = .nk6) ∨ (a = 8#8 ∧ nk = .nk8) := by
  unfold keyLenOf at h
  split at h
  · simp_all
  · split at h
    · simp_all
    · split at h <;> simp_all

/-- A key length that an `A` operand names has that many words. -/
theorem nkWords_of_keyLenOf {a : Byte} {nk : KeyLen} (h : keyLenOf a = some nk) : nkWords nk = a.toNat := by
  rcases keyLenOf_some h with ⟨rfl, rfl⟩ | ⟨rfl, rfl⟩ | ⟨rfl, rfl⟩ <;> rfl

theorem keyLenOf_isSome {a : Byte} (h : a = 4#8 ∨ a = 6#8 ∨ a = 8#8) : ∃ nk, keyLenOf a = some nk := by
  rcases h with rfl | rfl | rfl
  · exact ⟨.nk4, rfl⟩
  · exact ⟨.nk6, rfl⟩
  · exact ⟨.nk8, rfl⟩

theorem keyLenOf_none {a : Byte} (h : ¬ (a = 4#8 ∨ a = 6#8 ∨ a = 8#8)) : keyLenOf a = none := by
  simp_all [keyLenOf]

/-- A key length that the spec admits is named by its operand (30_encoding.md R86). -/
theorem keyLenOf_of_mem {a : Byte} (h : a.toNat ∈ [4, 6, 8]) : ∃ nk, keyLenOf a = some nk ∧ nkWords nk = a.toNat := by
  have ha : a = 4#8 ∨ a = 6#8 ∨ a = 8#8 := by
    simp only [List.mem_cons, List.not_mem_nil, or_false] at h
    rcases h with h | h | h
    · exact .inl (BitVec.eq_of_toNat_eq h)
    · exact .inr (.inl (BitVec.eq_of_toNat_eq h))
    · exact .inr (.inr (BitVec.eq_of_toNat_eq h))
  obtain ⟨nk, hn⟩ := keyLenOf_isSome ha
  exact ⟨nk, hn, nkWords_of_keyLenOf hn⟩

/-- Any other operand names no key length (30_encoding.md R86). -/
theorem keyLenOf_of_not_mem {a : Byte} (h : a.toNat ∉ [4, 6, 8]) : keyLenOf a = none := by
  apply keyLenOf_none
  rintro (rfl | rfl | rfl) <;> simp at h

@[simp] theorem storedRoundKey_get (W : Vector Word 60) (k c : Nat) (h : c < 4) :
    (storedRoundKey W k)[c] = schedWord W (4 * k + c) := by
  simp [storedRoundKey]

@[simp] theorem schedWord_of_lt (W : Vector Word 60) {i : Nat} (h : i < 60) : schedWord W i = W[i] := by
  simp [schedWord, h]

end Sys2Proof.Machine
end

