-- ==== Sys2Proof/Laws/KeySchedule.lean ====
section
/-!
SUPPORT. Lemmas of the key expansion: lengths, and that later words leave earlier ones alone.
-/

namespace Sys2Proof.Machine

@[simp] theorem expandLoop_length (Nk n : Nat) (w : List Word) :
    (expandLoop Nk n w).length = w.length + n := by
  induction n generalizing w with
  | zero => rfl
  | succ n ih => simp [expandLoop, ih]; omega

/-- The loop only appends. -/
theorem expandLoop_getElem? (Nk n : Nat) (w : List Word) (i : Nat) (h : i < w.length) :
    (expandLoop Nk n w)[i]? = w[i]? := by
  induction n generalizing w with
  | zero => rfl
  | succ n ih =>
    rw [expandLoop, ih _ (by simp; omega), List.getElem?_append_left h]

@[simp] theorem keyExpansion_length (KW : Vector Word 8) (nk : KeyLen) :
    (keyExpansion KW (nkWords nk)).length = scheduleLength (nkWords nk) := by
  have := nkWords_le nk
  simp [keyExpansion, scheduleLength]; omega

theorem scheduleLength_le (nk : KeyLen) : scheduleLength (nkWords nk) ≤ 60 := by
  have := nkWords_le nk
  simp [scheduleLength]; omega

@[simp] theorem roundKeyOf_get (w : List Word) (k c : Nat) (h : c < 4) :
    (roundKeyOf w k)[c] = w.getD (4 * k + c) 0 := by
  simp [roundKeyOf]

end Sys2Proof.Machine
end

