-- ==== Sys2Proof/Laws/Ops.lean ====
section
/-!
SUPPORT. For each shared operation, one lemma that says all it can do; and the step by the decoder's answer.
-/

namespace Sys2Proof.Machine

open Sys2Proof.Safety

/-! ### Acceptance, rejection, guards -/

theorem accept_eq (val : Word) (data : List Byte) (s : State) :
    accept val data s = .next (afterAccept val data s.engine s) := rfl

theorem accept_setBlock (val : Word) (data : List Byte) (S : Block) (s : State) :
    accept val data (setBlock S s) = .next (afterAccept val data { s.engine with ST := S } s) := rfl

theorem accept_loadBlock (val : Word) (data : List Byte) (S : Block) (s : State) :
    accept val data (loadBlock S s) = .next (afterAccept val data { s.engine with ST := S, SV := true } s) := rfl

theorem acceptQuiet_eq (val : Word) (s : State) :
    acceptQuiet val s = .next { s with responses := ⟨.ok, val, []⟩ :: s.responses } := rfl

theorem reject_eq (code : RejectCode) (s : State) : reject code s = .next (afterReject code s) := rfl

/-- What the guard on `SV` can answer. -/
theorem requireState_cases (s : State) (k : Result) :
    (s.engine.SV = true ∧ requireState s k = k) ∨
    (s.engine.SV = false ∧ requireState s k = .next (afterReject .eNoState s)) := by
  cases h : s.engine.SV <;> simp [requireState, h, reject_eq]

/-- What the guard on `KV` can answer. -/
theorem requireKey_cases (s : State) (k : Result) :
    (s.engine.KV = true ∧ requireKey s k = k) ∨
    (s.engine.KV = false ∧ requireKey s k = .next (afterReject .eNoKey s)) := by
  cases h : s.engine.KV <;> simp [requireKey, h, reject_eq]

/-- What the guard on `WV` can answer. -/
theorem requireSchedule_cases (s : State) (k : Result) :
    (s.engine.WV = true ∧ requireSchedule s k = k) ∨
    (s.engine.WV = false ∧ requireSchedule s k = .next (afterReject .eNoSched s)) := by
  cases h : s.engine.WV <;> simp [requireSchedule, h, reject_eq]

/-- What the guard on a round-key index can answer. -/
theorem requireRange_cases (idx : Byte) (s : State) (k : Result) :
    (idx.toNat ≤ nkWords s.engine.NK + 6 ∧ requireRange idx s k = k) ∨
    (nkWords s.engine.NK + 6 < idx.toNat ∧ requireRange idx s k = .next (afterReject .eRange s)) := by
  by_cases h : idx.toNat ≤ nkWords s.engine.NK + 6
  · exact .inl ⟨h, by simp [requireRange, h]⟩
  · exact .inr ⟨by omega, by simp [requireRange, h, reject_eq]⟩

/-! ### The step -/

/-- Without an event nothing changes. -/
theorem step_idle {s : State} (h : s.input = []) : step s = .next s := by
  simp [step, takeEvent, h]

/-- The reset event. -/
theorem step_reset {s : State} {rest : List Event} (h : s.input = .reset :: rest) :
    step s = .next (resetEngine { s with input := rest }) := by
  simp [step, takeEvent, h]

/-- A command on the port, by the decoder's answer. -/
theorem step_issued (c : Command) (s : State) :
    step (issued c s) = match decode c with
      | .ok i => exec i s
      | .error code => .next (afterReject code s) := rfl

/-- Everything a step can be: idle, the reset event, or a command on the port. -/
theorem step_cases (s : State) :
    (s.input = [] ∧ step s = .next s) ∨
    (∃ rest, s.input = .reset :: rest ∧ step s = .next (resetEngine { s with input := rest })) ∨
    (∃ c s', s = issued c s' ∧ step s = step (issued c s')) := by
  cases h : s.input with
  | nil => exact .inl ⟨rfl, step_idle h⟩
  | cons e rest =>
    cases e with
    | reset => exact .inr (.inl ⟨rest, rfl, step_reset h⟩)
    | command c =>
      have : s = issued c { s with input := rest } := by
        cases s; simp_all [issued]
      exact .inr (.inr ⟨c, _, this, by rw [← this]⟩)

end Sys2Proof.Machine
end

