-- ==== Sys2Proof/Laws/PerInstr.lean ====
section
/-!
SUPPORT. A statement about every command, one lemma per constructor: the length field of its encoded word is its
payload's length (30_encoding.md R80, R90).
-/

namespace Sys2Proof.Laws.EncodedLength

/-- A payload that the 8-bit field can count is counted by it (30_encoding.md R80). -/
def Statement (i : Instr) : Prop :=
  (encodePayload i).length < 256 → (lenField (encodeWord i)).toNat = (encodePayload i).length

/-- A command without payload: its length field is 0. -/
theorem of_no_payload (op a b : Byte) : (lenField (cmdWord op a b 0)).toNat = 0 :=
  congrArg BitVec.toNat (lenField_cmdWord op a b 0)

/-- A payload of at most 255 bytes is counted by the length field. -/
theorem of_payload (op a b : Byte) (p : List Byte) (h : p.length < 256) :
    (lenField (cmdWord op a b (BitVec.ofNat 8 p.length))).toNat = p.length := by
  rw [lenField_cmdWord, BitVec.toNat_ofNat, Nat.mod_eq_of_lt h]

theorem gfadd (a b : Byte) : Statement (.gfadd a b) := fun _ => of_no_payload _ _ _

theorem gfmul (a b : Byte) : Statement (.gfmul a b) := fun _ => of_no_payload _ _ _

theorem sbox (a : Byte) : Statement (.sbox a) := fun _ => of_no_payload _ _ _

theorem ldst (p : List Byte) : Statement (.ldst p) := fun h => of_payload _ _ _ _ h

theorem rdst : Statement .rdst := fun _ => of_no_payload _ _ _

theorem subb : Statement .subb := fun _ => of_no_payload _ _ _

theorem shrow : Statement .shrow := fun _ => of_no_payload _ _ _

theorem mixc : Statement .mixc := fun _ => of_no_payload _ _ _

theorem ark (k : Byte) : Statement (.ark k) := fun _ => of_no_payload _ _ _

theorem ldkey (nk : Byte) (q : List Byte) : Statement (.ldkey nk q) := fun h => of_payload _ _ _ _ h

theorem kexp : Statement .kexp := fun _ => of_no_payload _ _ _

theorem rdrk (k : Byte) : Statement (.rdrk k) := fun _ => of_no_payload _ _ _

theorem enc : Statement .enc := fun _ => of_no_payload _ _ _

theorem rdstat : Statement .rdstat := fun _ => of_no_payload _ _ _

end Sys2Proof.Laws.EncodedLength
end

