-- ==== Sys2Proof/Tests/Slice0.lean ====
section
/-!
SUPPORT. Tests on small states, with results from 95_test_vectors.md and from the examples of the command rules; the
smoke tests of the well-formedness checks; words written out from the encoding tables; and, for every statement with
hypotheses, an input that meets them.
-/

namespace Sys2Proof.Tests

set_option Elab.async false

open Sys2Proof.Machine Sys2Proof.Safety

/-! ### Helpers -/

/-- What `f` reads in the state that an outcome goes on with. -/
def observe {α : Type} (f : State → α) : Result → Option α
  | .next t => some (f t)
  | .fault _ => none
  | .refused _ => none

/-- The newest response. -/
def lastResponse (t : State) : Option Response := t.responses.head?

/-- The engine with a block loaded. -/
def loaded (p : List Byte) : State :=
  { State.reset with engine := { EngineState.reset with ST := blockOfBytes p, SV := true } }

/-- The engine with a block and a key loaded. -/
def keyed (nk : KeyLen) (q p : List Byte) : State :=
  { State.reset with engine :=
    { EngineState.reset with ST := blockOfBytes p, SV := true, KW := keyOfBytes q, NK := nk, KV := true } }

/-- The engine with a block, a key and its schedule. -/
def scheduled (nk : KeyLen) (q p : List Byte) : State :=
  { State.reset with engine :=
    { ST := blockOfBytes p, SV := true, KW := keyOfBytes q, NK := nk, KV := true
      W := Vector.ofFn fun i => (keyExpansion (keyOfBytes q) (nkWords nk)).getD i.val 0
      WV := true, ERR := .ok } }

/-- The state `000102030405060708090a0b0c0d0e0f` of V-D14a to V-D17c. -/
def counted : State := loaded (countingBytes 16)

/-- The engine of V-S1 with the schedule of V-D20. -/
def sample : State := scheduled .nk4 (countingBytes 16) samplePlaintext

/-! ### Well-formedness: an ill-formed term for each check is refused -/

theorem test_wf_refuses_ldst_short : (Instr.ldst (List.replicate 15 0)).wf = false := by decide
theorem test_wf_refuses_ldst_long : (Instr.ldst (List.replicate 17 0)).wf = false := by decide
theorem test_wf_refuses_ldkey_nk : (Instr.ldkey 5 (List.replicate 20 0)).wf = false := by decide
theorem test_wf_refuses_ldkey_length : (Instr.ldkey 4 (List.replicate 24 0)).wf = false := by decide
theorem test_wf_accepts_each_key_length : (Instr.ldkey 4 (List.replicate 16 0)).wf = true ∧
    (Instr.ldkey 6 (List.replicate 24 0)).wf = true ∧ (Instr.ldkey 8 (List.replicate 32 0)).wf = true := by decide

/-! ### Decoding: a word of every constructor, written out from the pattern column of 30_encoding.md R84 -/

theorem test_decode_gfadd : decode (transfer 0x10578300 []) = .ok (.gfadd 0x57 0x83) := by decide +kernel
theorem test_decode_gfmul : decode (transfer 0x11571300 []) = .ok (.gfmul 0x57 0x13) := by decide +kernel
theorem test_decode_sbox : decode (transfer 0x20530000 []) = .ok (.sbox 0x53) := by decide +kernel
theorem test_decode_ldst :
    decode (transfer 0x30000010 samplePlaintext) = .ok (.ldst samplePlaintext) := by decide +kernel
theorem test_decode_rdst : decode (transfer 0x31000000 []) = .ok .rdst := by decide +kernel
theorem test_decode_subb : decode (transfer 0x32000000 []) = .ok .subb := by decide +kernel
theorem test_decode_shrow : decode (transfer 0x33000000 []) = .ok .shrow := by decide +kernel
theorem test_decode_mixc : decode (transfer 0x34000000 []) = .ok .mixc := by decide +kernel
theorem test_decode_ark : decode (transfer 0x350A0000 []) = .ok (.ark 10) := by decide +kernel
theorem test_decode_ldkey :
    decode (transfer 0x40060018 (countingBytes 24)) = .ok (.ldkey 6 (countingBytes 24)) := by decide +kernel
theorem test_decode_kexp : decode (transfer 0x41000000 []) = .ok .kexp := by decide +kernel
theorem test_decode_rdrk : decode (transfer 0x42010000 []) = .ok (.rdrk 1) := by decide +kernel
theorem test_decode_enc : decode (transfer 0x50000000 []) = .ok .enc := by decide +kernel
theorem test_decode_rdstat : decode (transfer 0x60000000 []) = .ok .rdstat := by decide +kernel

/-- V-D6, V-D13, V-D19, V-D25: words the decoder rejects, by name. -/
theorem test_decode_rejects :
    decode (transfer 0x12000000 []) = .error .eIllegal ∧
    decode (transfer 0x10578301 [0]) = .error .eLen ∧
    decode (transfer 0x20530101 [0]) = .error .eIllegal ∧
    decode (transfer 0x32000100 []) = .error .eIllegal ∧
    decode (transfer 0x41010000 []) = .error .eIllegal ∧
    decode (transfer 0x00000000 []) = .error .eIllegal := by decide +kernel

/-- 30_encoding.md R90: `LDKEY 4, …` assembles to the word 0x40040010, `GFMUL 0x57, 0x83` to 0x11578300. -/
theorem test_encode_words :
    encodeWord (.ldkey 4 (countingBytes 16)) = 0x40040010 ∧ encodeWord (.gfmul 0x57 0x83) = 0x11578300 ∧
    encodeWord (.ldst samplePlaintext) = 0x30000010 := by decide +kernel

/-! ### Byte order (20_memory.md) -/

/-- R54's example, and R57's key word 0 of V-D20. -/
theorem test_words_are_big_endian :
    wordOfBytes 0x09 0xCF 0x4F 0x3C = 0x09CF4F3C ∧ keyWord (countingBytes 16) 1 = 0x04050607 := by decide +kernel

/-- 42_state_ops.md R141's example: the places of four bytes of the block, and column 0. -/
theorem test_block_is_column_major :
    cell (blockOfBytes samplePlaintext) 1 0 = 0x11 ∧ cell (blockOfBytes samplePlaintext) 0 1 = 0x44 ∧
    cell (blockOfBytes samplePlaintext) 3 3 = 0xFF ∧ column (blockOfBytes samplePlaintext) 0 = 0x00112233 := by
  decide +kernel

/-! ### Field arithmetic (V-D1, V-D3, V-D4) -/

theorem test_gfadd : observe lastResponse (exec (.gfadd 0x57 0x83) State.reset) =
    some (some ⟨.ok, 0x000000D4, []⟩) := by decide +kernel
theorem test_gfmul : observe lastResponse (exec (.gfmul 0x57 0x13) State.reset) =
    some (some ⟨.ok, 0x000000FE, []⟩) := by decide +kernel
theorem test_products : gfMul 0x80 0x80 = 0x9A ∧ gfMul 0xFF 0xFF = 0x13 ∧ gfMul 0x02 0x8D = 0x01 ∧
    gfMul 0xF6 0x52 = 0xC7 := by decide +kernel
theorem test_carryless_products : polyMult 0x57 0x83 = 0x2B79 ∧ polyMult 0xFF 0xFF = 0x5555 := by decide +kernel
theorem test_reductions : gfReduce 0x7FFF = 0x1A ∧ gfReduce 0x00FF = 0xFF ∧ gfReduce 0x011B = 0 := by decide +kernel
theorem test_xtime : xtime 0x80 = 0x1B ∧ xtime 0x7F = 0xFE ∧ xtime 0xFF = 0xE5 := by decide +kernel

/-! ### Substitution (V-D10, V-D11) -/

theorem test_sbox : observe lastResponse (exec (.sbox 0x53) State.reset) =
    some (some ⟨.ok, 0x000000ED, []⟩) := by decide +kernel
theorem test_sbox_entries : subByte 0x00 = 0x63 ∧ subByte 0x0F = 0x76 ∧ subByte 0x10 = 0xCA ∧ subByte 0x56 = 0xB1 ∧
    subByte 0xF0 = 0x8C ∧ subByte 0xFF = 0x16 := by decide +kernel
theorem test_sub_word : subWord 0xCF4F3C09 = 0x8A84EB01 := by decide +kernel

/-- V-D12: the sum and the XOR of the 256 entries. -/
theorem test_sbox_checksums :
    ((List.range 256).map fun v => (subByte (BitVec.ofNat 8 v)).toNat).sum = 32640 ∧
    ((List.range 256).map fun v => subByte (BitVec.ofNat 8 v)).foldl (· ^^^ ·) 0 = 0 := by decide +kernel

/-! ### State operations (V-D14 to V-D17) -/

theorem test_ldst : observe (fun t => (bytesOfBlock t.engine.ST, status t.engine))
    (exec (.ldst samplePlaintext) State.reset) = some (samplePlaintext, 0x00000001) := by decide +kernel
theorem test_ldst_short : observe (fun t => (t.engine.ST = counted.engine.ST, lastResponse t))
    (exec (.ldst (List.replicate 15 0)) counted) = some (True, some ⟨.eLen, 0, []⟩) := by
  simp [exec, execLdst, reject, observe, lastResponse]
theorem test_rdst : observe lastResponse (exec .rdst counted) =
    some (some ⟨.ok, 0, countingBytes 16⟩) := by decide +kernel
theorem test_subb : observe (fun t => bytesOfBlock t.engine.ST) (exec .subb counted) =
    some [0x63, 0x7C, 0x77, 0x7B, 0xF2, 0x6B, 0x6F, 0xC5, 0x30, 0x01, 0x67, 0x2B, 0xFE, 0xD7, 0xAB, 0x76] := by
  decide +kernel
theorem test_shrow : observe (fun t => bytesOfBlock t.engine.ST) (exec .shrow counted) =
    some [0x00, 0x05, 0x0A, 0x0F, 0x04, 0x09, 0x0E, 0x03, 0x08, 0x0D, 0x02, 0x07, 0x0C, 0x01, 0x06, 0x0B] := by
  decide +kernel
theorem test_mixc : observe (fun t => bytesOfBlock t.engine.ST) (exec .mixc counted) =
    some [0x02, 0x07, 0x00, 0x05, 0x06, 0x03, 0x04, 0x01, 0x0A, 0x0F, 0x08, 0x0D, 0x0E, 0x0B, 0x0C, 0x09] := by
  decide +kernel
theorem test_ark : observe (fun t => bytesOfBlock t.engine.ST)
    (exec (.ark 10) (scheduled .nk4 (countingBytes 16) (countingBytes 16))) =
    some [0x13, 0x10, 0x1F, 0x7C, 0xE7, 0x91, 0x4C, 0x10, 0xFB, 0x0E, 0xAD, 0x80, 0x41, 0x26, 0x3E, 0xCA] := by
  decide +kernel

/-- V-D19: the last index is accepted, the next is `E_RANGE`; without a schedule it is `E_NOSCHED`. -/
theorem test_ark_rejections :
    observe lastResponse (exec (.ark 11) sample) = some (some ⟨.eRange, 0, []⟩) ∧
    observe lastResponse (exec (.ark 200) counted) = some (some ⟨.eNoSched, 0, []⟩) ∧
    observe lastResponse (exec (.ark 0) State.reset) = some (some ⟨.eNoState, 0, []⟩) := by decide +kernel

/-! ### Key schedule (V-D20 to V-D25) -/

theorem test_ldkey : observe (fun t => (t.engine.KW[0], t.engine.KW[3], status t.engine))
    (exec (.ldkey 4 (countingBytes 16)) State.reset) = some (0x00010203, 0x0C0D0E0F, 0x00000042) := by decide +kernel

/-- V-D25, 43_key_schedule.md R180: which rejection each malformed `LDKEY` gets. -/
theorem test_ldkey_rejections :
    observe lastResponse (exec (.ldkey 4 (List.replicate 24 0)) State.reset) = some (some ⟨.eKeyLen, 0, []⟩) ∧
    observe lastResponse (exec (.ldkey 5 (List.replicate 20 0)) State.reset) = some (some ⟨.eIllegal, 0, []⟩) ∧
    observe lastResponse (exec (.ldkey 0 []) State.reset) = some (some ⟨.eIllegal, 0, []⟩) := by decide +kernel

theorem test_kexp_128 : observe (fun t => (t.engine.W[4], t.engine.W[40], t.engine.W[43], status t.engine))
    (exec .kexp (keyed .nk4 (countingBytes 16) samplePlaintext)) =
    some (0xD6AA74FD, 0x13111D7F, 0x4D2B30C5, 0x00000047) := by decide +kernel
theorem test_kexp_256 : observe (fun t => (t.engine.W[8], t.engine.W[12], t.engine.W[59], status t.engine))
    (exec .kexp (keyed .nk8 (countingBytes 32) samplePlaintext)) =
    some (0xA573C29F, 0x1651A8CD, 0x6D68DE36, 0x00000087) := by decide +kernel
theorem test_rdrk : observe lastResponse (exec (.rdrk 1) sample) =
    some (some ⟨.ok, 0, [0xD6, 0xAA, 0x74, 0xFD, 0xD2, 0xAF, 0x72, 0xFA, 0xDA, 0xA6, 0x78, 0xF1, 0xD6, 0xAB, 0x76,
      0xFE]⟩) := by decide +kernel
theorem test_rdrk_rejections :
    observe lastResponse (exec (.rdrk 11) sample) = some (some ⟨.eRange, 0, []⟩) ∧
    observe lastResponse (exec (.rdrk 0) State.reset) = some (some ⟨.eNoSched, 0, []⟩) := by decide +kernel

/-! ### Encryption (V-S1, V-D33 and 44_block_encrypt.md R205) -/

theorem test_enc : observe (fun t => (bytesOfBlock t.engine.ST, status t.engine)) (exec .enc sample) =
    some ([0x69, 0xC4, 0xE0, 0xD8, 0x6A, 0x7B, 0x04, 0x30, 0xD8, 0xCD, 0xB7, 0x80, 0x70, 0xB4, 0xC5, 0x5A],
      0x00000043) := by decide +kernel
theorem test_enc_192 : observe (fun t => bytesOfBlock t.engine.ST)
    (exec .enc (keyed .nk6 (List.replicate 24 0) (List.replicate 16 0))) =
    some [0xAA, 0xE0, 0x69, 0x92, 0xAC, 0xBF, 0x52, 0xA3, 0xE8, 0xF4, 0xA9, 0x6E, 0xC9, 0x30, 0x0B, 0xD7] := by
  decide +kernel

/-! ### System (45_system.md R220) -/

theorem test_rdstat : observe lastResponse (exec .rdstat sample) = some (some ⟨.ok, 0x00000047, []⟩) := by
  decide +kernel

/-- R220: a rejected `ARK` leaves its code in `STATUS`, and reading it does not erase it. -/
theorem test_rdstat_keeps_err : observe (fun t => (lastResponse t, t.engine.ERR))
    (exec .rdstat { counted with engine := { counted.engine with ERR := .eNoSched } }) =
    some (some ⟨.ok, 0x00000601, []⟩, .eNoSched) := by decide +kernel

/-! ### The step (60_exceptions.md R233's examples; 30_encoding.md R85) -/

theorem test_step_lowest_code :
    observe lastResponse (step (issued (transfer 0x50000001 [0]) State.reset)) = some (some ⟨.eLen, 0, []⟩) ∧
    observe lastResponse (step (issued (transfer 0x50000000 []) State.reset)) = some (some ⟨.eNoState, 0, []⟩) ∧
    observe lastResponse (step (issued (transfer 0x40040103 [0, 0, 0]) State.reset)) =
      some (some ⟨.eIllegal, 0, []⟩) := by decide +kernel

theorem test_step_reset_event : observe (fun t => (status t.engine, t.responses.length))
    (step { sample with input := [.reset] }) = some (0x00000000, 0) := by decide +kernel

theorem test_step_fetches_table_word :
    observe lastResponse (step (State.reset.withFetchWord 32 0x20530000)) = some (some ⟨.ok, 0x000000ED, []⟩) := by
  decide +kernel

/-! ### Inputs that meet the hypotheses of the statements -/

theorem witness_DecodeOfEncodeGivesTheCommand :
    (Instr.ldkey 8 (countingBytes 32)).wf = true ∧ (Instr.ldst samplePlaintext).wf = true := by decide

theorem witness_EncodeOfDecodeGivesTheWord :
    decode (transfer 0x40080020 (countingBytes 32)) = .ok (.ldkey 8 (countingBytes 32)) := by decide +kernel

/-- One illegal word for each form of 30_encoding.md R86, and one legal word. -/
theorem witness_IllegalWordsAreRejectedWithEIllegal :
    (([0x00000000, 0xFF000000, 0x31010000, 0x30010010, 0x20530100, 0x40040110, 0x40050014, 0x40030000,
      0x40090024] : List Word).all fun w => illegalWord w) ∧
    (([0x10578301, 0x40040000] : List Word).all fun w => ¬ illegalWord w) := by decide +kernel

theorem witness_StepExecutesTheDecodedCommand :
    decode (transfer 0x50000000 []) = .ok .enc ∧ decode (transfer 0x50000001 [0]) = .error .eLen := by decide +kernel

theorem witness_FetchedTableWordIsExecuted :
    decodeTableWord 32 0x60000000 = some .rdstat ∧ decodeTableWord 32 0x10578300 = some (.gfadd 0x57 0x83) := by
  decide +kernel

theorem witness_NothingHappensWithoutAnEvent : State.reset.input = [] := rfl

/-- Every cause of a rejection, and acceptance. -/
theorem witness_RejectionWritesOnlyErr :
    procedureCode (transfer 0x12000000 []) State.reset.engine = .eIllegal ∧
    procedureCode (transfer 0x4004000F (countingBytes 15)) State.reset.engine = .eKeyLen ∧
    procedureCode (transfer 0x3000000F (countingBytes 15)) State.reset.engine = .eLen ∧
    procedureCode (transfer 0x31000000 []) State.reset.engine = .eNoState ∧
    procedureCode (transfer 0x50000000 []) counted.engine = .eNoKey ∧
    procedureCode (transfer 0x35000000 []) counted.engine = .eNoSched ∧
    procedureCode (transfer 0x420B0000 []) sample.engine = .eRange ∧
    procedureCode (transfer 0x420A0000 []) sample.engine = .ok := by decide +kernel

/-- Several causes at once: no opcode applies alone, `ARK 255` after reset has three. -/
theorem witness_LowestApplicableCodeWins :
    causeApplies .eNoState (transfer 0x35FF0000 []) State.reset.engine ∧
    causeApplies .eNoSched (transfer 0x35FF0000 []) State.reset.engine ∧
    causeApplies .eRange (transfer 0x35FF0000 []) State.reset.engine ∧
    causeApplies .eIllegal (transfer 0x40050014 (countingBytes 20)) State.reset.engine ∧
    (∀ k, ¬ causeApplies k (transfer 0x10578300 []) State.reset.engine) := by
  refine ⟨by decide +kernel, by decide +kernel, by decide +kernel, by decide +kernel, fun k => ?_⟩
  cases k <;> decide +kernel

theorem witness_ErrHoldsTheCodeOfTheLastCommand :
    opField (transfer 0x60000000 []).cmd = 0x60#8 ∧
    procedureCode (transfer 0x60000000 []) State.reset.engine = .ok ∧
    opField (transfer 0x50000000 []).cmd ≠ 0x60#8 := by decide +kernel

theorem witness_command_words :
    opField 0x10578300 = 0x10#8 ∧ opField 0x11FFFF00 = 0x11#8 ∧ opField 0x20530000 = 0x20#8 ∧
    opField 0x31000000 = 0x31#8 ∧ opField 0x32000000 = 0x32#8 ∧ opField 0x33000000 = 0x33#8 ∧
    opField 0x34000000 = 0x34#8 ∧ opField 0x350E0000 = 0x35#8 ∧ opField 0x42000000 = 0x42#8 ∧
    opField 0x60000000 = 0x60#8 := by decide +kernel

/-- The engine states the completion clauses of `RDST`, `SUBB`, `SHROW`, `MIXC`, `ARK`, `RDRK`, `KEXP`, `ENC` ask
for, with the last round-key index of the smallest and of the largest schedule. -/
theorem witness_completion :
    counted.engine.SV = true ∧
    (sample.engine.SV = true ∧ sample.engine.KV = true ∧ sample.engine.WV = true ∧
      (10#8).toNat ≤ nkWords sample.engine.NK + 6 ∧ ¬ (11#8).toNat ≤ nkWords sample.engine.NK + 6) ∧
    (14#8).toNat ≤ nkWords (scheduled .nk8 (countingBytes 32) samplePlaintext).engine.NK + 6 := by decide +kernel

/-- `LDST`: each clause, with the payload lengths 0, 15, 16, 17. -/
theorem witness_LdstFollowsItsRule :
    (opField 0x30010010 = 0x30#8 ∧ aField 0x30010010 ≠ 0#8) ∧
    (opField 0x30000110 = 0x30#8 ∧ bField 0x30000110 ≠ 0#8) ∧
    (([0x30000000, 0x3000000F, 0x30000011] : List Word).all fun w =>
      opField w = 0x30#8 ∧ aField w = 0#8 ∧ bField w = 0#8 ∧ lenField w ≠ 16#8) ∧
    (opField 0x30000010 = 0x30#8 ∧ aField 0x30000010 = 0#8 ∧ bField 0x30000010 = 0#8 ∧ lenField 0x30000010 = 16#8) ∧
    samplePlaintext.length = 16 := by decide +kernel

/-- `LDKEY`: each clause, with the key lengths next to 4, 6, 8 and the payload lengths next to 16. -/
theorem witness_LdkeyFollowsItsRule :
    (([0x40040110, 0x40000000, 0x40030010, 0x40050014, 0x40070018, 0x40090024, 0x40FF0010] : List Word).all fun w =>
      opField w = 0x40#8 ∧ (bField w ≠ 0#8 ∨ (aField w).toNat ∉ [4, 6, 8])) ∧
    (([0x4004000F, 0x40040011, 0x40040018, 0x40040000] : List Word).all fun w =>
      opField w = 0x40#8 ∧ bField w = 0#8 ∧ (aField w).toNat ∈ [4, 6, 8] ∧
        (lenField w).toNat ≠ 4 * (aField w).toNat) ∧
    (([0x40040010, 0x40060018, 0x40080020] : List Word).all fun w =>
      opField w = 0x40#8 ∧ bField w = 0#8 ∧ (aField w).toNat ∈ [4, 6, 8] ∧
        (lenField w).toNat = 4 * (aField w).toNat) ∧
    ((6#8).toNat ∈ [4, 6, 8] ∧ (countingBytes 24).length = 4 * (6#8).toNat) := by decide +kernel

/-- `KEXP`: each clause. -/
theorem witness_KexpFollowsItsRule :
    (opField 0x41010000 = 0x41#8 ∧ aField 0x41010000 ≠ 0#8) ∧
    (opField 0x41000001 = 0x41#8 ∧ aField 0x41000001 = 0#8 ∧ bField 0x41000001 = 0#8 ∧ lenField 0x41000001 ≠ 0#8) ∧
    (opField 0x41000000 = 0x41#8 ∧ aField 0x41000000 = 0#8 ∧ bField 0x41000000 = 0#8 ∧ lenField 0x41000000 = 0#8) ∧
    State.reset.engine.KV = false ∧ sample.engine.KV = true := by decide +kernel

/-- `ENC`: each clause. -/
theorem witness_EncFollowsItsRule :
    (opField 0x50000100 = 0x50#8 ∧ bField 0x50000100 ≠ 0#8) ∧
    (opField 0x50000001 = 0x50#8 ∧ aField 0x50000001 = 0#8 ∧ bField 0x50000001 = 0#8 ∧ lenField 0x50000001 ≠ 0#8) ∧
    (opField 0x50000000 = 0x50#8 ∧ aField 0x50000000 = 0#8 ∧ bField 0x50000000 = 0#8 ∧ lenField 0x50000000 = 0#8) ∧
    State.reset.engine.SV = false ∧
    (counted.engine.SV = true ∧ counted.engine.KV = false) ∧
    (sample.engine.SV = true ∧ sample.engine.KV = true) := by decide +kernel

/-- A state with a key and its schedule meets the invariants. -/
theorem scheduled_inv (nk : KeyLen) (q p : List Byte) (h : nk ≠ .noKey) : EngineInv (scheduled nk q p) := by
  refine ⟨by cases nk <;> simp_all [scheduled, nkWords], fun _ => rfl, fun _ i hi => ?_, show (rcBits .ok).toNat ≤ 7 by decide⟩
  have hi : i.val < (keyExpansion (keyOfBytes q) (nkWords nk)).length := by
    rw [keyExpansion_length]; exact hi
  simp [scheduled, List.getElem?_eq_getElem hi]

theorem witness_invariants :
    EngineInv sample ∧ EngineInv (scheduled .nk8 (countingBytes 32) samplePlaintext) ∧
    sample.engine.WV = true :=
  ⟨scheduled_inv _ _ _ (by decide), scheduled_inv _ _ _ (by decide), rfl⟩

theorem witness_StepKeepsTheInvariants :
    EngineInv (issued (transfer 0x60000000 []) sample) ∧
    ∃ t, step (issued (transfer 0x60000000 []) sample) = .next t := ⟨scheduled_inv _ _ _ (by decide), _, rfl⟩

theorem witness_EncEqualsTheElementaryCommands :
    EngineInv sample ∧ sample.engine.SV = true ∧ sample.engine.KV = true := ⟨witness_invariants.1, rfl, rfl⟩

/-- A state whose next event is `ENC`, and an idle one. -/
theorem witness_TheKeyPersists :
    (∀ rest, (issued (transfer 0x50000000 []) sample).input ≠ .reset :: rest) ∧
    (∀ c rest, (issued (transfer 0x50000000 []) sample).input = .command c :: rest → opField c.cmd ≠ 0x40#8) := by
  refine ⟨fun rest h => by simp [issued] at h, fun c rest h => ?_⟩
  obtain ⟨rfl, -⟩ : transfer 0x50000000 [] = c ∧ _ := by simpa [issued] using h
  decide +kernel

theorem witness_ResetClearsTheFlags : ∃ rest, ({ sample with input := [.reset] } : State).input = .reset :: rest :=
  ⟨[], rfl⟩

/-- Two states that differ in the contents of all three stores and look the same. -/
theorem witness_NoResponseDependsOnUnspecifiedContents :
    let s : State := { State.reset with engine := { sample.engine with SV := false, WV := false } }
    let t : State := { State.reset with engine :=
      { sample.engine with
        ST := blockOfBytes (countingBytes 16), SV := false
        KW := sample.engine.KW.set 7 0xFFFFFFFF
        W := Vector.replicate 60 0xFFFFFFFF, WV := false } }
    sameVisible s t ∧ s.engine.ST ≠ t.engine.ST ∧ s.engine.KW ≠ t.engine.KW ∧ s.engine.W ≠ t.engine.W := by
  decide +kernel

theorem witness_OnlyKexpAndEncReadTheKey : (Instr.ark 3) ≠ .kexp ∧ (Instr.ark 3) ≠ .enc := by decide

theorem witness_LoadedBlockReadsBack : samplePlaintext.length = 16 := by decide

theorem witness_SubstitutionIsInverseThenAffine :
    (0x53 : Byte) ≠ 0 ∧ gfMul 0x53 0xCA = 0x01 ∧ gfMul 0xFF 0x1C = 0x01 := by decide +kernel

theorem witness_FieldLaws : gfMul 0x00 0xAB = 0 := by decide +kernel

theorem witness_MixColumnsIsTheMatrixProduct :
    ∀ r, cell (blockOfBytes (List.replicate 16 0xC6)) r 2 = cell (blockOfBytes (List.replicate 16 0xC6)) 0 2 := by
  decide +kernel

/-- Each branch of the recursion: the first word after the key, the extra substitution, a plain word, the last. -/
theorem witness_KeyExpansionRecursion :
    (4 ≤ 4 ∧ 4 < 4 * (4 + 7) ∧ 4 % 4 = 0) ∧
    (8 ≤ 12 ∧ 12 < 4 * (8 + 7) ∧ 12 % 8 ≠ 0 ∧ (12 - 4) % 8 = 0) ∧
    (6 ≤ 51 ∧ 51 < 4 * (6 + 7) ∧ 51 % 6 ≠ 0) ∧ (8 ≤ 59 ∧ 59 < 4 * (8 + 7) ∧ 59 % 8 ≠ 0 ∧ (59 - 4) % 8 ≠ 0) := by
  decide

theorem witness_key_sizes : 4 ∈ [4, 6, 8] ∧ 8 ≤ (4 + 6) - 2 := by decide

theorem witness_EncryptPseudoInstructionMeetsTheContract :
    (8#8).toNat ∈ [4, 6, 8] ∧ (countingBytes 32).length = 4 * (8#8).toNat ∧ samplePlaintext.length = 16 := by decide

/-- Two key registers that agree on the four words of a 128-bit key only. -/
theorem witness_EncryptIsABijectionOfTheBlock :
    (∀ j : Fin 8, j.val < 4 → (keyOfBytes (countingBytes 32))[j.val] = (keyOfBytes (countingBytes 16))[j.val]) ∧
    keyOfBytes (countingBytes 32) ≠ keyOfBytes (countingBytes 16) := by decide +kernel

end Sys2Proof.Tests
end

section
/-!
The step, read off the decoder (00_scope.md R8, R9; 30_encoding.md R85).
-/

namespace Sys2Proof.Machine

open Sys2Proof.Safety

/-- A command the decoder accepts: the step is its meaning in the state it was issued in (00_scope.md R8). -/
theorem step_issued_of_decode_ok {c : Command} {i : Instr} (h : decode c = .ok i) (s : State) :
    step (issued c s) = exec i s := by
  rw [step_issued, h]

/-- A command the decoder rejects: the step is that rejection (30_encoding.md R85). -/
theorem step_issued_of_decode_error {c : Command} {code : RejectCode} (h : decode c = .error code) (s : State) :
    step (issued c s) = .next (afterReject code s) := by
  rw [step_issued, h]

/-- Settles O6, by the decoder's answer. -/
theorem stepExecutesTheDecodedCommand : Obligations.StepExecutesTheDecodedCommand := fun s _ =>
  ⟨fun _ accepted => step_issued_of_decode_ok accepted s,
   fun _ rejected => step_issued_of_decode_error rejected s⟩

/-- Settles O8: the idle step. -/
theorem nothingHappensWithoutAnEvent : Obligations.NothingHappensWithoutAnEvent := fun _ noEvent =>
  step_idle noEvent

end Sys2Proof.Machine
end

section
/-!
SUPPORT. Everything the meaning of a command can do, said once: how it ends, and what an accepted command makes of
the engine; and what the decoder can answer. The proofs about all commands go through these cases.
-/

namespace Sys2Proof.Machine

open Sys2Proof.Safety

/-! ### How a meaning ends -/

/-- What accepted command `i`, other than `RDSTAT`, makes of state `s` before `ERR` and the response are written
(10_state.md R36). -/
inductive Effect (s : State) : Instr → State → Prop
  /-- `GFADD`, `GFMUL`, `SBOX`, `RDST`, `RDRK` write no store. -/
  | nothing {i : Instr} (other : i ≠ .rdstat) : Effect s i s
  | transformsBlock {i : Instr} (S : Block) (transforms : i = .subb ∨ i = .shrow ∨ i = .mixc ∨ ∃ k, i = .ark k) :
      Effect s i (setBlock S s)
  | loadsBlock (p : List Byte) : Effect s (.ldst p) (loadBlock (blockOfBytes p) s)
  | loadsKey {nk : Byte} {n : KeyLen} (q : List Byte) (named : keyLenOf nk = some n) :
      Effect s (.ldkey nk q) (loadKey n q s)
  | storesSchedule (keyed : s.engine.KV = true) :
      Effect s .kexp (storeSchedule (keyExpansion s.engine.KW (nkWords s.engine.NK)) s)
  | encrypts (S : Block) : Effect s .enc (discardSchedule (setBlock S s))

/-- The three ways command `i` ends in state `s`: rejected, accepted, or the accepted `RDSTAT`, which writes nothing
(10_state.md R29, 60_exceptions.md R231). -/
inductive Ending (s : State) (i : Instr) : State → Prop
  | rejected (code : RejectCode) (failed : code ≠ .ok) : Ending s i (afterReject code s)
  | accepted (val : Word) (data : List Byte) {u : State} (effect : Effect s i u) :
      Ending s i (respond ⟨.ok, val, data⟩ (setErr .ok u))
  | statusRead (val : Word) (isRdstat : i = .rdstat) : Ending s i (respond ⟨.ok, val, []⟩ s)

/-- The result `k` is a next state that is an ending of `i` in `s`. -/
def EndsAs (s : State) (i : Instr) (k : Result) : Prop := ∃ t, k = .next t ∧ Ending s i t

section
variable {s : State} {i : Instr} {k : Result}

theorem endsAs_reject {code : RejectCode} (failed : code ≠ .ok) : EndsAs s i (reject code s) :=
  ⟨_, rfl, .rejected code failed⟩

theorem endsAs_accept {val : Word} {data : List Byte} {u : State} (effect : Effect s i u) :
    EndsAs s i (accept val data u) :=
  ⟨_, rfl, .accepted val data effect⟩

/-- What passes a guard, or is rejected by it, ends as `i` does. -/
theorem endsAs_guard {passes fails : Prop} {g : Result} {code : RejectCode}
    (answers : (passes ∧ g = k) ∨ (fails ∧ g = .next (afterReject code s))) (failed : code ≠ .ok)
    (passed : passes → EndsAs s i k) : EndsAs s i g := by
  rcases answers with ⟨pass, e⟩ | ⟨-, e⟩ <;> rw [e]
  · exact passed pass
  · exact endsAs_reject failed

theorem endsAs_requireState (h : EndsAs s i k) : EndsAs s i (requireState s k) :=
  endsAs_guard (requireState_cases s k) (by decide) fun _ => h

theorem endsAs_requireKey (h : s.engine.KV = true → EndsAs s i k) : EndsAs s i (requireKey s k) :=
  endsAs_guard (requireKey_cases s k) (by decide) h

theorem endsAs_requireSchedule (h : EndsAs s i k) : EndsAs s i (requireSchedule s k) :=
  endsAs_guard (requireSchedule_cases s k) (by decide) fun _ => h

theorem endsAs_requireRange {idx : Byte} (h : EndsAs s i k) : EndsAs s i (requireRange idx s k) :=
  endsAs_guard (requireRange_cases idx s k) (by decide) fun _ => h

end

/-- `LDST` by its payload's length (42_state_ops.md R141). -/
theorem execLdst_cases (p : List Byte) (s : State) :
    (p.length = 16 ∧ execLdst p s = accept 0 [] (loadBlock (blockOfBytes p) s)) ∨
    (p.length ≠ 16 ∧ execLdst p s = reject .eLen s) := by
  unfold execLdst; split <;> simp_all

/-- `LDKEY` by its operands (43_key_schedule.md R180). -/
theorem execLdkey_cases (nk : Byte) (q : List Byte) (s : State) :
    (∃ n, keyLenOf nk = some n ∧ q.length = 4 * nkWords n ∧ execLdkey nk q s = accept 0 [] (loadKey n q s)) ∨
    (∃ n, keyLenOf nk = some n ∧ q.length ≠ 4 * nkWords n ∧ execLdkey nk q s = reject .eKeyLen s) ∨
    (keyLenOf nk = none ∧ execLdkey nk q s = reject .eIllegal s) := by
  unfold execLdkey
  cases keyLenOf nk with
  | none => simp
  | some n => by_cases h : q.length = 4 * nkWords n <;> simp [h]

/-- Every meaning ends in one of the three ways, in every state. -/
theorem exec_ends (i : Instr) (s : State) : EndsAs s i (exec i s) := by
  cases i with
  | gfadd | gfmul | sbox => exact endsAs_accept (.nothing (by simp))
  | ldst p =>
    rcases execLdst_cases p s with ⟨-, e⟩ | ⟨-, e⟩ <;> simp only [exec, e]
    · exact endsAs_accept (.loadsBlock p)
    · exact endsAs_reject (by decide)
  | rdst => exact endsAs_requireState (endsAs_accept (.nothing (by simp)))
  | subb | shrow | mixc => exact endsAs_requireState (endsAs_accept (.transformsBlock _ (by simp)))
  | ark k =>
    exact endsAs_requireState (endsAs_requireSchedule (endsAs_requireRange
      (endsAs_accept (.transformsBlock _ (by simp)))))
  | ldkey nk q =>
    rcases execLdkey_cases nk q s with ⟨n, named, -, e⟩ | ⟨n, -, -, e⟩ | ⟨-, e⟩ <;> simp only [exec, e]
    · exact endsAs_accept (.loadsKey q named)
    · exact endsAs_reject (by decide)
    · exact endsAs_reject (by decide)
  | kexp => exact endsAs_requireKey fun keyed => endsAs_accept (.storesSchedule keyed)
  | rdrk k => exact endsAs_requireSchedule (endsAs_requireRange (endsAs_accept (.nothing (by simp))))
  | enc => exact endsAs_requireState (endsAs_requireKey fun _ => endsAs_accept (.encrypts _))
  | rdstat => exact ⟨_, rfl, .statusRead _ rfl⟩

/-! ### What the decoder answers -/

/-- An answer the decoder may give to `c`: an instruction of the command's own opcode, or a code that is not `OK`. -/
def Answers (c : Command) : Except RejectCode Instr → Prop
  | .ok i => opField (encodeWord i) = opField c.cmd
  | .error code => code ≠ .ok

section
variable {c : Command}

theorem answers_decodeZ {i : Instr} (h : opField (encodeWord i) = opField c.cmd) : Answers c (decodeZ c i) := by
  rcases decodeZ_cases c i with ⟨-, e⟩ | ⟨-, -, -, e⟩ | ⟨-, -, -, e⟩ <;> simp [e, Answers, h]

theorem answers_decodeA {i : Byte → Instr} (h : ∀ a, opField (encodeWord (i a)) = opField c.cmd) :
    Answers c (decodeA c i) := by
  rcases decodeA_cases c i with ⟨-, e⟩ | ⟨-, -, e⟩ | ⟨-, -, e⟩ <;> simp [e, Answers, h]

theorem answers_decodeAB {i : Byte → Byte → Instr} (h : ∀ a b, opField (encodeWord (i a b)) = opField c.cmd) :
    Answers c (decodeAB c i) := by
  rcases decodeAB_cases c i with ⟨-, e⟩ | ⟨-, e⟩ <;> simp [e, Answers, h]

theorem answers_decodeP {i : List Byte → Instr} (h : ∀ p, opField (encodeWord (i p)) = opField c.cmd) :
    Answers c (decodeP c i) := by
  rcases decodeP_cases c i with ⟨-, e⟩ | ⟨-, -, e⟩ <;> simp [e, Answers, h]

theorem answers_decodeAP {i : Byte → List Byte → Instr}
    (h : ∀ a p, opField (encodeWord (i a p)) = opField c.cmd) : Answers c (decodeAP c i) := by
  rcases decodeAP_cases c i with ⟨-, e⟩ | ⟨-, e⟩ <;> simp [e, Answers, h]

end

/-- The decoder answers with an instruction of the command's own opcode, or with a code that is not `OK`
(30_encoding.md R84, R86). -/
theorem decode_answers (c : Command) : Answers c (decode c) := by
  rcases decode_cases c with ⟨op, e⟩ | ⟨op, e⟩ | ⟨op, e⟩ | ⟨op, e⟩ | ⟨op, e⟩ | ⟨op, e⟩ | ⟨op, e⟩ | ⟨op, e⟩ |
    ⟨op, e⟩ | ⟨op, e⟩ | ⟨op, e⟩ | ⟨op, e⟩ | ⟨op, e⟩ | ⟨op, e⟩ | ⟨-, e⟩ <;> rw [e]
  · exact answers_decodeAB fun a b => by simp [encodeWord, op]
  · exact answers_decodeAB fun a b => by simp [encodeWord, op]
  · exact answers_decodeA fun a => by simp [encodeWord, op]
  · exact answers_decodeP fun p => by simp [encodeWord, op]
  · exact answers_decodeZ (by simp [encodeWord, op])
  · exact answers_decodeZ (by simp [encodeWord, op])
  · exact answers_decodeZ (by simp [encodeWord, op])
  · exact answers_decodeZ (by simp [encodeWord, op])
  · exact answers_decodeA fun k => by simp [encodeWord, op]
  · exact answers_decodeAP fun nk q => by simp [encodeWord, op]
  · exact answers_decodeZ (by simp [encodeWord, op])
  · exact answers_decodeA fun k => by simp [encodeWord, op]
  · exact answers_decodeZ (by simp [encodeWord, op])
  · exact answers_decodeZ (by simp [encodeWord, op])
  · simp [Answers]

/-- The opcode of a decoded instruction is that of the command. -/
theorem opField_encodeWord_of_decode {c : Command} {i : Instr} (h : decode c = .ok i) :
    opField (encodeWord i) = opField c.cmd := by
  simpa [h, Answers] using decode_answers c

/-- The decoder rejects with a code that is not `OK`. -/
theorem ne_ok_of_decode_error {c : Command} {code : RejectCode} (h : decode c = .error code) : code ≠ .ok := by
  simpa [h, Answers] using decode_answers c

theorem opField_encodeWord_eq_rdstat {i : Instr} : opField (encodeWord i) = 0x60#8 ↔ i = .rdstat := by
  cases i <;> simp [encodeWord]

end Sys2Proof.Machine
end

section
/-!
The invariants of 10_state.md R28: at reset, under each operation, under each step.
-/

namespace Sys2Proof.Machine

open Sys2Proof.Safety

/-- Codes 8 to 15 are never produced (60_exceptions.md R230). -/
theorem rcBits_le (code : RejectCode) : (rcBits code).toNat ≤ 7 := by cases code <;> decide

theorem nkWords_mem (nk : KeyLen) : nkWords nk ∈ [0, 4, 6, 8] := by cases nk <;> decide

/-- A key length that an operand names is a key's (30_encoding.md R86). -/
theorem nkWords_mem_of_keyLenOf {a : Byte} {nk : KeyLen} (h : keyLenOf a = some nk) : nkWords nk ∈ [4, 6, 8] := by
  rcases keyLenOf_some h with ⟨-, rfl⟩ | ⟨-, rfl⟩ | ⟨-, rfl⟩ <;> decide

section
variable {s : State}

theorem engineInv_setErr (code : RejectCode) (h : EngineInv s) : EngineInv (setErr code s) := by
  obtain ⟨hKey, hWV, hW, -⟩ := h
  exact ⟨hKey, hWV, hW, rcBits_le code⟩

/-- The block is in no invariant. -/
theorem engineInv_setBlock (S : Block) (h : EngineInv s) : EngineInv (setBlock S s) := h

theorem engineInv_loadBlock (S : Block) (h : EngineInv s) : EngineInv (loadBlock S s) := h

/-- The responses are in no invariant. -/
theorem engineInv_respond (r : Response) (h : EngineInv s) : EngineInv (respond r s) := h

/-- A key of 4, 6 or 8 words, and no schedule of it yet. -/
theorem engineInv_loadKey {nk : KeyLen} (q : List Byte) (hnk : nkWords nk ∈ [4, 6, 8]) (h : EngineInv s) :
    EngineInv (loadKey nk q s) := by
  have nonzero : nkWords nk ≠ 0 := by intro zero; simp [zero] at hnk
  obtain ⟨-, -, -, hERR⟩ := h
  exact ⟨⟨by simpa using nonzero, by simpa using hnk⟩, by simp, by simp, hERR⟩

/-- The stored schedule is that of the key. -/
theorem engineInv_storeSchedule (keyed : s.engine.KV = true) (h : EngineInv s) :
    EngineInv (storeSchedule (keyExpansion s.engine.KW (nkWords s.engine.NK)) s) := by
  obtain ⟨hKey, -, -, hERR⟩ := h
  refine ⟨hKey, fun _ => keyed, fun _ i hi => ?_, hERR⟩
  have inSchedule : i.val < (keyExpansion s.engine.KW (nkWords s.engine.NK)).length := by simpa using hi
  rw [storeSchedule_W_of_lt _ _ _ i.isLt inSchedule]
  exact List.getElem?_eq_getElem inSchedule

theorem engineInv_discardSchedule (h : EngineInv s) : EngineInv (discardSchedule s) := by
  obtain ⟨hKey, -, -, hERR⟩ := h
  exact ⟨hKey, by simp, by simp, hERR⟩

theorem engineInv_resetEngine (s : State) : EngineInv (resetEngine s) :=
  ⟨by simp [nkWords], by simp, by simp, rcBits_le _⟩

theorem engineInv_of_effect {i : Instr} {u : State} (effect : Effect s i u) (h : EngineInv s) : EngineInv u := by
  cases effect with
  | nothing _ => exact h
  | transformsBlock S _ => exact engineInv_setBlock S h
  | loadsBlock p => exact engineInv_loadBlock _ h
  | loadsKey q named => exact engineInv_loadKey q (nkWords_mem_of_keyLenOf named) h
  | storesSchedule keyed => exact engineInv_storeSchedule keyed h
  | encrypts S => exact engineInv_discardSchedule (engineInv_setBlock S h)

theorem engineInv_of_ending {i : Instr} {t : State} (ending : Ending s i t) (h : EngineInv s) : EngineInv t := by
  cases ending with
  | rejected code _ => exact engineInv_setErr code h
  | accepted _ _ effect => exact engineInv_respond _ (engineInv_setErr .ok (engineInv_of_effect effect h))
  | statusRead _ _ => exact engineInv_respond _ h

end

/-- Settles O30: idle, reset, a rejection by the decoder, or an ending of the decoded command's meaning. -/
theorem stepKeepsTheInvariants : Obligations.StepKeepsTheInvariants := by
  intro s t inv next
  rcases step_cases s with ⟨-, e⟩ | ⟨rest, -, e⟩ | ⟨c, s', rfl, -⟩
  · obtain rfl : s = t := by simpa [e] using next
    exact inv
  · obtain rfl : resetEngine _ = t := by simpa [e] using next
    exact engineInv_resetEngine _
  · cases d : decode c with
    | error code =>
      obtain rfl : afterReject code s' = t := by simpa [step_issued_of_decode_error d] using next
      exact engineInv_setErr code inv
    | ok i =>
      obtain ⟨t', e, ending⟩ := exec_ends i s'
      obtain rfl : t' = t := by simpa [step_issued_of_decode_ok d, e] using next
      exact engineInv_of_ending ending inv

/-- Settles O29: no key, no schedule, no error. -/
theorem invariantsHoldAtReset : Obligations.InvariantsHoldAtReset :=
  ⟨by simp [nkWords], by simp, by simp, rcBits_le _⟩

end Sys2Proof.Machine
end

section
/-!
What writes and what reads `ERR` (10_state.md R29), what each command leaves untouched (R36), and `STATUS` (R30).
-/

namespace Sys2Proof.Machine

open Sys2Proof.Safety

/-- What R29 says of `ERR` where the engine in `s` takes a command, `RDSTAT` or not, and goes on in `t`: a response
`r`; nothing written by an accepted `RDSTAT`, else the code of `r` in `ERR`. -/
def ErrWritten (s : State) (isRdstat : Prop) (t : State) : Prop :=
  ∃ r, t.responses = r :: s.responses ∧ (isRdstat ∧ r.rc = .ok → t.engine = s.engine) ∧
    (¬ (isRdstat ∧ r.rc = .ok) → t.engine.ERR = r.rc)

theorem errWritten_afterReject {code : RejectCode} (failed : code ≠ .ok) (s : State) (isRdstat : Prop) :
    ErrWritten s isRdstat (afterReject code s) :=
  ⟨⟨code, 0, []⟩, rfl, fun ⟨_, ok⟩ => absurd ok failed, fun _ => rfl⟩

theorem effect_ne_rdstat {s u : State} {i : Instr} (effect : Effect s i u) : i ≠ .rdstat := by
  rintro rfl
  cases effect with
  | nothing other => exact other rfl
  | transformsBlock _ transforms => simp at transforms

theorem effect_responses {s u : State} {i : Instr} (effect : Effect s i u) : u.responses = s.responses := by
  cases effect <;> simp

theorem errWritten_of_ending {s t : State} {i : Instr} (ending : Ending s i t) : ErrWritten s (i = .rdstat) t := by
  cases ending with
  | rejected code failed => exact errWritten_afterReject failed s _
  | accepted val data effect =>
    exact ⟨⟨.ok, val, data⟩, by simp [effect_responses effect],
      fun ⟨isRdstat, _⟩ => absurd isRdstat (effect_ne_rdstat effect), fun _ => rfl⟩
  | statusRead val isRdstat =>
    exact ⟨⟨.ok, val, []⟩, rfl, fun _ => rfl, fun other => absurd ⟨isRdstat, rfl⟩ other⟩

/-- Every command on the port writes `ERR` as R29 says. -/
theorem step_errWritten (s : State) (c : Command) :
    ∃ t, step (issued c s) = .next t ∧ ErrWritten s (opField c.cmd = 0x60#8) t := by
  cases d : decode c with
  | error code =>
    exact ⟨_, step_issued_of_decode_error d s, errWritten_afterReject (ne_ok_of_decode_error d) s _⟩
  | ok i =>
    obtain ⟨t, e, ending⟩ := exec_ends i s
    rw [← opField_encodeWord_of_decode d, opField_encodeWord_eq_rdstat]
    exact ⟨t, (step_issued_of_decode_ok d s).trans e, errWritten_of_ending ending⟩

/-- No meaning but that of `RDSTAT` reads `ERR`, and each writes it. -/
theorem exec_setErr {i : Instr} (other : i ≠ .rdstat) (code : RejectCode) (s : State) :
    exec i (setErr code s) = exec i s := by
  cases i with
  | rdstat => exact absurd rfl other
  | _ => rfl

/-- Settles O14: the endings of the command, the reset state, and the meanings that do not read `ERR`. -/
theorem errHoldsTheCodeOfTheLastCommand : Obligations.ErrHoldsTheCodeOfTheLastCommand := by
  refine ⟨fun s c => ?_, rfl, fun s c code notRdstat => ?_⟩
  · obtain ⟨t, e, r, responded, quiet, written⟩ := step_errWritten s c
    exact ⟨r, t, e, responded, quiet, written⟩
  · change step (issued c (setErr code s)) = step (issued c s)
    cases d : decode c with
    | error _ => rw [step_issued_of_decode_error d, step_issued_of_decode_error d]; rfl
    | ok i =>
      rw [step_issued_of_decode_ok d, step_issued_of_decode_ok d]
      refine exec_setErr (fun isRdstat => notRdstat ?_) code s
      rw [← opField_encodeWord_of_decode d, opField_encodeWord_eq_rdstat, isRdstat]

/-! ### The frame of each command (10_state.md R36) -/

/-- Settles O31, by the command's ending and its effect. -/
theorem commandsTouchOnlyTheirState : Obligations.CommandsTouchOnlyTheirState := by
  intro i s
  obtain ⟨t, e, ending⟩ := exec_ends i s
  cases ending with
  | rejected code _ => exact ⟨⟨code, 0, []⟩, _, e, by simp [afterReject]⟩
  | statusRead val isRdstat => exact ⟨⟨.ok, val, []⟩, _, e, by simp [isRdstat]⟩
  | accepted val data effect =>
    refine ⟨⟨.ok, val, data⟩, _, e, ?_⟩
    cases effect with
    | nothing _ => simp
    | transformsBlock S transforms => rcases transforms with rfl | rfl | rfl | ⟨k, rfl⟩ <;> simp
    | loadsBlock p => simp
    | loadsKey q _ => simp
    | storesSchedule _ => simp
    | encrypts S => simp

/-! ### `STATUS` (10_state.md R30) -/

@[simp] theorem nkBits_toNat (nk : KeyLen) : (nkBits nk).toNat = nkWords nk := by cases nk <;> rfl

/-- The flags of `STATUS` in bits 0 to 2, and the reserved bit 3. -/
theorem status_flags (e : EngineState) :
    (status e).getLsbD 0 = e.SV ∧ (status e).getLsbD 1 = e.KV ∧ (status e).getLsbD 2 = e.WV ∧
    (status e).getLsbD 3 = false := by
  simp only [status, BitVec.getLsbD_setWidth, BitVec.getLsbD_append]
  simp

theorem status_getLsbD_nk (e : EngineState) {j : Nat} (h : j < 4) :
    (status e).getLsbD (4 + j) = (nkBits e.NK).getLsbD j := by
  simp only [status, BitVec.getLsbD_setWidth, BitVec.getLsbD_append]
  grind

/-- `ERR` and the zeros above it. -/
theorem status_getLsbD_err (e : EngineState) (j : Nat) :
    (status e).getLsbD (8 + j) = (rcBits e.ERR).getLsbD j := by
  simp only [status, BitVec.getLsbD_setWidth, BitVec.getLsbD_append]
  grind

theorem status_getLsbD_reserved (e : EngineState) (j : Nat) : (status e).getLsbD (12 + j) = false :=
  calc (status e).getLsbD (12 + j)
    _ = (status e).getLsbD (8 + (4 + j)) := by congr 1; omega
    _ = (rcBits e.ERR).getLsbD (4 + j) := status_getLsbD_err e (4 + j)
    _ = false := BitVec.getLsbD_of_ge _ _ (by omega)

/-- Settles O34, bit by bit. -/
theorem statusLayout : Obligations.StatusLayout := by
  intro e
  obtain ⟨hSV, hKV, hWV, hZero⟩ := status_flags e
  refine ⟨hSV, hKV, hWV, hZero, ?_, nkWords_mem e.NK, ?_, rcBits_le e.ERR, ?_⟩
  · rw [← nkBits_toNat]
    refine congrArg _ (BitVec.eq_of_getLsbD_eq fun j hj => ?_)
    simp [hj, status_getLsbD_nk e hj]
  · refine BitVec.eq_of_getLsbD_eq fun j hj => ?_
    simp [hj, status_getLsbD_err e j]
  · refine BitVec.eq_of_getLsbD_eq fun j hj => ?_
    simp [status_getLsbD_reserved e j]

end Sys2Proof.Machine
end

section
/-!
Two runs side by side: what a response may depend on (10_state.md R34), and who reads the key (R23).
-/

namespace Sys2Proof.Machine

open Sys2Proof.Safety

/-- Both results are next states, and `R` relates them. -/
def BothNext (R : State → State → Prop) (a b : Result) : Prop := ∃ s' t', a = .next s' ∧ b = .next t' ∧ R s' t'

/-! ### A guard keeps two runs together when both read the same flag -/

section
variable {R : State → State → Prop} {s t : State} {k l : Result}

theorem bothNext_next (h : R s t) : BothNext R (.next s) (.next t) := ⟨_, _, rfl, rfl, h⟩

theorem bothNext_ite {p q : Prop} [Decidable p] [Decidable q] {k' l' : Result} (agree : p ↔ q)
    (rejected : BothNext R k' l') (passed : p → BothNext R k l) :
    BothNext R (if p then k else k') (if q then l else l') := by
  by_cases hp : p
  · rw [if_pos hp, if_pos (agree.mp hp)]
    exact passed hp
  · rw [if_neg hp, if_neg (mt agree.mpr hp)]
    exact rejected

theorem bothNext_requireState (agree : s.engine.SV = t.engine.SV)
    (rejected : BothNext R (reject .eNoState s) (reject .eNoState t))
    (passed : s.engine.SV = true → BothNext R k l) : BothNext R (requireState s k) (requireState t l) :=
  bothNext_ite (by rw [agree]) rejected passed

theorem bothNext_requireKey (agree : s.engine.KV = t.engine.KV)
    (rejected : BothNext R (reject .eNoKey s) (reject .eNoKey t))
    (passed : s.engine.KV = true → BothNext R k l) : BothNext R (requireKey s k) (requireKey t l) :=
  bothNext_ite (by rw [agree]) rejected passed

theorem bothNext_requireSchedule (agree : s.engine.WV = t.engine.WV)
    (rejected : BothNext R (reject .eNoSched s) (reject .eNoSched t))
    (passed : s.engine.WV = true → BothNext R k l) : BothNext R (requireSchedule s k) (requireSchedule t l) :=
  bothNext_ite (by rw [agree]) rejected passed

theorem bothNext_requireRange {idx : Byte} (agree : s.engine.NK = t.engine.NK)
    (rejected : BothNext R (reject .eRange s) (reject .eRange t))
    (passed : idx.toNat ≤ nkWords s.engine.NK + 6 → BothNext R k l) :
    BothNext R (requireRange idx s k) (requireRange idx t l) :=
  bothNext_ite (by rw [agree]) rejected passed

/-- `LDST` in two states: the payload decides, not the state (42_state_ops.md R141). -/
theorem bothNext_execLdst {p : List Byte} (rejected : BothNext R (reject .eLen s) (reject .eLen t))
    (loaded : BothNext R (accept 0 [] (loadBlock (blockOfBytes p) s)) (accept 0 [] (loadBlock (blockOfBytes p) t))) :
    BothNext R (execLdst p s) (execLdst p t) :=
  bothNext_ite Iff.rfl rejected fun _ => loaded

/-- `LDKEY` in two states: the operands decide, not the state (43_key_schedule.md R180). -/
theorem bothNext_execLdkey {nk : Byte} {q : List Byte}
    (rejected : ∀ code, BothNext R (reject code s) (reject code t))
    (loaded : ∀ n, BothNext R (accept 0 [] (loadKey n q s)) (accept 0 [] (loadKey n q t))) :
    BothNext R (execLdkey nk q s) (execLdkey nk q t) := by
  unfold execLdkey
  cases keyLenOf nk with
  | none => exact rejected _
  | some n => exact bothNext_ite Iff.rfl (rejected _) fun _ => loaded n

end

/-! ### What is read of a store under its valid flag -/

/-- The expansion reads the words of the key only (43_key_schedule.md R175). -/
theorem keyExpansion_congr {K L : Vector Word 8} {Nk : Nat}
    (h : ∀ j : Fin 8, j.val < Nk → K[j.val] = L[j.val]) : keyExpansion K Nk = keyExpansion L Nk := by
  have sameKey : K.toList.take Nk = L.toList.take Nk := by
    refine List.ext_getElem (by simp) fun j hK _ => ?_
    obtain ⟨inKey, inStore⟩ : j < Nk ∧ j < 8 := by simpa using hK
    simpa using h ⟨j, inStore⟩ inKey
  rw [keyExpansion, keyExpansion, sameKey]

theorem encrypt_congr {K L : Vector Word 8} {Nk : Nat} (S : Block)
    (h : ∀ j : Fin 8, j.val < Nk → K[j.val] = L[j.val]) : encrypt S K Nk = encrypt S L Nk := by
  simp only [encrypt, keyExpansion_congr h]

/-- A round key in range lies inside the schedule (43_key_schedule.md R176). -/
theorem storedRoundKey_congr {V W : Vector Word 60} {nk : KeyLen} {k : Nat} (inRange : k ≤ nkWords nk + 6)
    (h : ∀ i : Fin 60, i.val < scheduleLength (nkWords nk) → V[i.val] = W[i.val]) :
    storedRoundKey V k = storedRoundKey W k := by
  refine Vector.ext fun c hc => ?_
  have inSchedule : 4 * k + c < scheduleLength (nkWords nk) := by simp only [scheduleLength]; omega
  have inStore : 4 * k + c < 60 := inSchedule.trans_le (scheduleLength_le nk)
  simpa [hc, inStore] using h ⟨4 * k + c, inStore⟩ inSchedule

/-! ### Each operation keeps `sameVisible` -/

section
variable {s t : State}

theorem sameVisible_status (h : sameVisible s t) : status s.engine = status t.engine := by
  obtain ⟨-, -, hSV, hNK, hKV, hWV, hERR, -⟩ := h
  simp only [status, hSV, hNK, hKV, hWV, hERR]

theorem sameVisible_setInput (input : List Event) (h : sameVisible s t) :
    sameVisible { s with input := input } { t with input := input } := by
  obtain ⟨-, rest⟩ := h
  exact ⟨rfl, rest⟩

theorem sameVisible_respond (r : Response) (h : sameVisible s t) : sameVisible (respond r s) (respond r t) := by
  obtain ⟨hin, hre, rest⟩ := h
  exact ⟨hin, congrArg (r :: ·) hre, rest⟩

theorem sameVisible_setErr (code : RejectCode) (h : sameVisible s t) :
    sameVisible (setErr code s) (setErr code t) := by
  obtain ⟨hin, hre, hSV, hNK, hKV, hWV, -, rest⟩ := h
  exact ⟨hin, hre, hSV, hNK, hKV, hWV, rfl, rest⟩

theorem sameVisible_setBlock (S : Block) (h : sameVisible s t) : sameVisible (setBlock S s) (setBlock S t) := by
  obtain ⟨hin, hre, hSV, hNK, hKV, hWV, hERR, -, hKW, hW⟩ := h
  exact ⟨hin, hre, hSV, hNK, hKV, hWV, hERR, fun _ => rfl, hKW, hW⟩

theorem sameVisible_loadBlock (S : Block) (h : sameVisible s t) : sameVisible (loadBlock S s) (loadBlock S t) := by
  obtain ⟨hin, hre, -, hNK, hKV, hWV, hERR, -, hKW, hW⟩ := h
  exact ⟨hin, hre, rfl, hNK, hKV, hWV, hERR, fun _ => rfl, hKW, hW⟩

/-- The words above the key may differ. -/
theorem sameVisible_loadKey (nk : KeyLen) (q : List Byte) (h : sameVisible s t) :
    sameVisible (loadKey nk q s) (loadKey nk q t) := by
  obtain ⟨hin, hre, hSV, -, -, -, hERR, hST, -, -⟩ := h
  refine ⟨hin, hre, hSV, rfl, rfl, rfl, hERR, hST, fun _ j hj => ?_, by simp⟩
  have inKey : j.val < nkWords nk := hj
  rw [loadKey_KW_of_lt _ _ _ _ _ inKey, loadKey_KW_of_lt _ _ _ _ _ inKey]

/-- The words above the schedule may differ. -/
theorem sameVisible_storeSchedule {w : List Word} (length : w.length = scheduleLength (nkWords s.engine.NK))
    (h : sameVisible s t) : sameVisible (storeSchedule w s) (storeSchedule w t) := by
  obtain ⟨hin, hre, hSV, hNK, hKV, -, hERR, hST, hKW, -⟩ := h
  refine ⟨hin, hre, hSV, hNK, hKV, rfl, hERR, hST, hKW, fun _ i hi => ?_⟩
  have inSchedule : i.val < w.length := by simpa [length] using hi
  rw [storeSchedule_W_of_lt _ _ _ _ inSchedule, storeSchedule_W_of_lt _ _ _ _ inSchedule]

theorem sameVisible_discardSchedule (h : sameVisible s t) :
    sameVisible (discardSchedule s) (discardSchedule t) := by
  obtain ⟨hin, hre, hSV, hNK, hKV, -, hERR, hST, hKW, -⟩ := h
  exact ⟨hin, hre, hSV, hNK, hKV, rfl, hERR, hST, hKW, by simp⟩

theorem sameVisible_resetEngine (h : sameVisible s t) : sameVisible (resetEngine s) (resetEngine t) := by
  obtain ⟨hin, hre, -⟩ := h
  exact ⟨hin, hre, rfl, rfl, rfl, rfl, rfl, by simp, by simp, by simp⟩

theorem sameVisible_reject (code : RejectCode) (h : sameVisible s t) :
    BothNext sameVisible (reject code s) (reject code t) :=
  bothNext_next (sameVisible_respond _ (sameVisible_setErr code h))

theorem sameVisible_accept (val : Word) (data : List Byte) (h : sameVisible s t) :
    BothNext sameVisible (accept val data s) (accept val data t) :=
  bothNext_next (sameVisible_respond _ (sameVisible_setErr .ok h))

/-! ### Each meaning keeps `sameVisible` -/

/-- A command that reads `ST`. -/
theorem sameVisible_requireState {k l : Result} (h : sameVisible s t)
    (passed : s.engine.ST = t.engine.ST → BothNext sameVisible k l) :
    BothNext sameVisible (requireState s k) (requireState t l) := by
  obtain ⟨-, -, hSV, -, -, -, -, hST, -⟩ := id h
  exact bothNext_requireState hSV (sameVisible_reject _ h) fun valid => passed (hST valid)

/-- A command that reads the key. -/
theorem sameVisible_requireKey {k l : Result} (h : sameVisible s t)
    (passed : (∀ j : Fin 8, j.val < nkWords s.engine.NK → s.engine.KW[j.val] = t.engine.KW[j.val]) →
      BothNext sameVisible k l) :
    BothNext sameVisible (requireKey s k) (requireKey t l) := by
  obtain ⟨-, -, -, -, hKV, -, -, -, hKW, -⟩ := id h
  exact bothNext_requireKey hKV (sameVisible_reject _ h) fun valid => passed (hKW valid)

/-- A command that reads a round key of the schedule. -/
theorem sameVisible_requireRoundKey {idx : Byte} {k l : Result} (h : sameVisible s t)
    (passed : storedRoundKey s.engine.W idx.toNat = storedRoundKey t.engine.W idx.toNat →
      BothNext sameVisible k l) :
    BothNext sameVisible (requireSchedule s (requireRange idx s k)) (requireSchedule t (requireRange idx t l)) := by
  obtain ⟨-, -, -, hNK, -, hWV, -, -, -, hW⟩ := id h
  exact bothNext_requireSchedule hWV (sameVisible_reject _ h) fun valid =>
    bothNext_requireRange hNK (sameVisible_reject _ h) fun inRange =>
      passed (storedRoundKey_congr inRange (hW valid))

theorem sameVisible_exec (i : Instr) (h : sameVisible s t) : BothNext sameVisible (exec i s) (exec i t) := by
  obtain ⟨-, -, -, hNK, -⟩ := id h
  cases i with
  | gfadd | gfmul | sbox => exact sameVisible_accept _ _ h
  | ldst p => exact bothNext_execLdst (sameVisible_reject _ h) (sameVisible_accept _ _ (sameVisible_loadBlock _ h))
  | rdst =>
    refine sameVisible_requireState h fun hST => ?_
    rw [hST]
    exact sameVisible_accept _ _ h
  | subb | shrow | mixc =>
    refine sameVisible_requireState h fun hST => ?_
    rw [hST]
    exact sameVisible_accept _ _ (sameVisible_setBlock _ h)
  | ark k =>
    refine sameVisible_requireState h fun hST => sameVisible_requireRoundKey h fun hK => ?_
    rw [hST, hK]
    exact sameVisible_accept _ _ (sameVisible_setBlock _ h)
  | ldkey nk q =>
    exact bothNext_execLdkey (fun code => sameVisible_reject code h) fun n =>
      sameVisible_accept _ _ (sameVisible_loadKey n q h)
  | kexp =>
    refine sameVisible_requireKey h fun hKW => ?_
    rw [keyExpansion_congr hKW, ← hNK]
    exact sameVisible_accept _ _ (sameVisible_storeSchedule (keyExpansion_length _ _) h)
  | rdrk k =>
    refine sameVisible_requireRoundKey h fun hK => ?_
    rw [hK]
    exact sameVisible_accept _ _ h
  | enc =>
    refine sameVisible_requireState h fun hST => sameVisible_requireKey h fun hKW => ?_
    rw [hST, encrypt_congr _ hKW, ← hNK]
    exact sameVisible_accept _ _ (sameVisible_discardSchedule (sameVisible_setBlock _ h))
  | rdstat =>
    simp only [exec, execRdstat, sameVisible_status h]
    exact bothNext_next (sameVisible_respond _ h)

end

/-- Settles O35: both states take the same event, and each operation keeps them alike. -/
theorem noResponseDependsOnUnspecifiedContents : Obligations.NoResponseDependsOnUnspecifiedContents := by
  intro s t h
  change BothNext sameVisible (step s) (step t)
  obtain ⟨sameInput, -⟩ := id h
  rcases step_cases s with ⟨noEvent, e⟩ | ⟨rest, event, e⟩ | ⟨c, s', rfl, -⟩
  · rw [e, step_idle (sameInput ▸ noEvent)]
    exact bothNext_next h
  · rw [e, step_reset (sameInput ▸ event)]
    exact bothNext_next (sameVisible_resetEngine (sameVisible_setInput rest h))
  · have issuedToT : t = issued c { t with input := s'.input } := by
      rw [issued, show Event.command c :: s'.input = t.input from sameInput]
    rw [issuedToT]
    have h' : sameVisible s' { t with input := s'.input } := sameVisible_setInput (s := issued c s') s'.input h
    cases d : decode c with
    | error code =>
      rw [step_issued_of_decode_error d, step_issued_of_decode_error d]
      exact sameVisible_reject code h'
    | ok i =>
      rw [step_issued_of_decode_ok d, step_issued_of_decode_ok d]
      exact sameVisible_exec i h'

/-! ### The key register (10_state.md R23, R36) -/

/-- `s` with another key register. -/
def setKey (K : Vector Word 8) (s : State) : State := { s with engine := { s.engine with KW := K } }

/-- The two states are one but for `KW`: with `K` in its place in both, they are equal. -/
def SameButKey (K : Vector Word 8) (s t : State) : Prop := setKey K s = setKey K t

theorem sameButKey_reject (K : Vector Word 8) (s : State) (code : RejectCode) :
    BothNext (SameButKey K) (reject code s) (reject code (setKey K s)) :=
  bothNext_next rfl

/-- A meaning but those of `KEXP` and `ENC` reads no key, so another key register stays or is overwritten. -/
theorem exec_setKey {i : Instr} (notKexp : i ≠ .kexp) (notEnc : i ≠ .enc) (s : State) (K : Vector Word 8) :
    BothNext (SameButKey K) (exec i s) (exec i (setKey K s)) := by
  have rejected := sameButKey_reject K s
  cases i with
  | kexp => exact absurd rfl notKexp
  | enc => exact absurd rfl notEnc
  | gfadd | gfmul | sbox | rdstat => exact bothNext_next rfl
  | ldst p => exact bothNext_execLdst (rejected _) (bothNext_next rfl)
  | rdst | subb | shrow | mixc => exact bothNext_requireState rfl (rejected _) fun _ => bothNext_next rfl
  | ark k =>
    exact bothNext_requireState rfl (rejected _) fun _ => bothNext_requireSchedule rfl (rejected _) fun _ =>
      bothNext_requireRange rfl (rejected _) fun _ => bothNext_next rfl
  | ldkey nk q => exact bothNext_execLdkey rejected fun _ => bothNext_next rfl
  | rdrk k =>
    exact bothNext_requireSchedule rfl (rejected _) fun _ => bothNext_requireRange rfl (rejected _) fun _ =>
      bothNext_next rfl

/-- Settles O36: the two runs end in one state but for `KW`. -/
theorem onlyKexpAndEncReadTheKey : Obligations.OnlyKexpAndEncReadTheKey := by
  intro i s K notKexp notEnc
  obtain ⟨t, u, et, eu, same⟩ := exec_setKey notKexp notEnc s K
  have sameResponses : (setKey K t).responses = (setKey K u).responses := congrArg State.responses same
  have sameEngine : (setKey K t).engine = (setKey K u).engine := congrArg State.engine same
  exact ⟨t, u, et, eu, sameResponses, sameEngine⟩

end Sys2Proof.Machine
end

section
/-!
Byte order (20_memory.md R54 to R56): bytes in a word, a block filled column by column and read back; and a block
loaded and read out on the port (R60).
-/

namespace Sys2Proof.Machine

open Sys2Proof.Safety

/-! ### Bytes in a word -/

/-- What is appended below `x` stands in the low bits of the sum. -/
theorem toNat_append_eq_add {m n : Nat} (x : BitVec m) (y : BitVec n) :
    (x ++ y).toNat = x.toNat * 2 ^ n + y.toNat := by
  rw [BitVec.toNat_append, ← Nat.shiftLeft_add_eq_or_of_lt y.isLt, Nat.shiftLeft_eq]

theorem wordOfBytes_toNat (b0 b1 b2 b3 : Byte) :
    (wordOfBytes b0 b1 b2 b3).toNat = b0.toNat * 2 ^ 24 + b1.toNat * 2 ^ 16 + b2.toNat * 2 ^ 8 + b3.toNat := by
  simp only [wordOfBytes, toNat_append_eq_add]
  ring

theorem byteOf_toNat (w : Word) (j : Fin 4) : (byteOf w j).toNat = w.toNat / 2 ^ (24 - 8 * j.val) % 2 ^ 8 := by
  rw [byteOf, BitVec.extractLsb'_toNat, Nat.shiftRight_eq_div_pow]

/-! ### Blocks -/

/-- Byte `r` of the word of a column is its cell at row `r` (20_memory.md R56). -/
theorem byteOf_column (S : Block) (c r : Fin 4) : byteOf (column S c) r = cell S r c := by
  rw [column, byteOf_wordOfBytes]
  fin_cases r <;> rfl

theorem column_blockOfBytes (p : List Byte) (c : Fin 4) :
    column (blockOfBytes p) c =
      wordOfBytes (byteAt p (4 * c.val)) (byteAt p (4 * c.val + 1)) (byteAt p (4 * c.val + 2))
        (byteAt p (4 * c.val + 3)) := by
  simp [column, Nat.add_comm]

/-- A block of 16 bytes reads out as it was loaded: byte `k` goes to row `k mod 4` and column `k div 4`, and comes
from there (20_memory.md R55). -/
theorem bytesOfBlock_blockOfBytes {p : List Byte} (h : p.length = 16) : bytesOfBlock (blockOfBytes p) = p := by
  refine List.ext_getElem (by simp [h]) fun k _ inString => ?_
  calc (bytesOfBlock (blockOfBytes p))[k]
    _ = byteAt p (k % 4 + 4 * (k / 4)) := by
      simp only [bytesOfBlock, List.getElem_ofFn, blockByte, cell_blockOfBytes]
    _ = p[k] := by simp [Nat.mod_add_div, byteAt, inString]

/-- Settles O37, a lemma for each clause. -/
theorem packingIsBigEndianAndColumnMajor : Obligations.PackingIsBigEndianAndColumnMajor :=
  ⟨wordOfBytes_toNat, byteOf_toNat, cell_blockOfBytes, fun S => ⟨bytesOfBlock_length S, bytesOfBlock_get S⟩,
    byteOf_column, column_blockOfBytes⟩

/-! ### `LDST` and `RDST` on the port -/

/-- A payload that the length field can count goes over the port unchanged (30_encoding.md R80). -/
theorem encodeCommand_ldst_pl {p : List Byte} (h : p.length < 256) : (encodeCommand (.ldst p)).pl = p :=
  transfer_pl _ p (Laws.EncodedLength.ldst p h).symm

theorem decode_encodeCommand_ldst {p : List Byte} (h : p.length < 256) :
    decode (encodeCommand (.ldst p)) = .ok (.ldst p) := by
  have word : (encodeCommand (.ldst p)).cmd = cmdWord 0x30#8 0 0 (BitVec.ofNat 8 p.length) := rfl
  rw [decode_ldst (by simp [word]), decodeP, encodeCommand_ldst_pl h]
  simp [word]

theorem decode_encodeCommand_rdst : decode (encodeCommand .rdst) = .ok .rdst := by
  have word : (encodeCommand .rdst).cmd = cmdWord 0x31#8 0 0 0 := rfl
  rw [decode_rdst (by simp [word]), decodeZ]
  simp [word]

/-- `LDST` with 16 bytes on the port (42_state_ops.md R141). -/
theorem step_ldst {p : List Byte} (h : p.length = 16) (s : State) :
    step (issued (encodeCommand (.ldst p)) s) = accept 0 [] (loadBlock (blockOfBytes p) s) := by
  rw [step_issued_of_decode_ok (decode_encodeCommand_ldst (by omega))]
  exact if_pos h

/-- `RDST` on the port where `ST` holds a block (42_state_ops.md R148). -/
theorem step_rdst {s : State} (valid : s.engine.SV = true) :
    step (issued (encodeCommand .rdst) s) = accept 0 (bytesOfBlock s.engine.ST) s := by
  rw [step_issued_of_decode_ok decode_encodeCommand_rdst]
  exact if_pos valid

/-- Settles O38: `LDST` sets `SV`, so `RDST` passes its guard and reads the loaded block out. -/
theorem loadedBlockReadsBack : Obligations.LoadedBlockReadsBack := by
  intro s p length
  refine ⟨_, _, step_ldst length s, step_rdst rfl, ?_⟩
  simp [bytesOfBlock_blockOfBytes length]

end Sys2Proof.Machine
end

section
/-!
The encoding: a command on the port decodes to an instruction exactly when it is that instruction's encoding
(30_encoding.md R80 to R84).
-/

namespace Sys2Proof.Machine

open Sys2Proof.Safety

/-! ### What each format accepts (30_encoding.md R82) -/

section
variable {c : Command} {j : Instr}

@[simp] theorem decodeZ_eq_ok {i : Instr} :
    decodeZ c i = .ok j ↔ aField c.cmd = 0#8 ∧ bField c.cmd = 0#8 ∧ lenField c.cmd = 0#8 ∧ i = j := by
  rcases decodeZ_cases c i with ⟨nonzero, e⟩ | ⟨hA, hB, hLen, e⟩ | ⟨hA, hB, hLen, e⟩
  · exact iff_of_false (by simp [e]) (by tauto)
  · simp [e, hLen]
  · simp [e, hA, hB, hLen]

@[simp] theorem decodeA_eq_ok {i : Byte → Instr} :
    decodeA c i = .ok j ↔ bField c.cmd = 0#8 ∧ lenField c.cmd = 0#8 ∧ i (aField c.cmd) = j := by
  rcases decodeA_cases c i with ⟨hB, e⟩ | ⟨hB, hLen, e⟩ | ⟨hB, hLen, e⟩ <;> simp [*]

@[simp] theorem decodeAB_eq_ok {i : Byte → Byte → Instr} :
    decodeAB c i = .ok j ↔ lenField c.cmd = 0#8 ∧ i (aField c.cmd) (bField c.cmd) = j := by
  rcases decodeAB_cases c i with ⟨hLen, e⟩ | ⟨hLen, e⟩ <;> simp [*]

@[simp] theorem decodeP_eq_ok {i : List Byte → Instr} :
    decodeP c i = .ok j ↔ aField c.cmd = 0#8 ∧ bField c.cmd = 0#8 ∧ i c.pl = j := by
  rcases decodeP_cases c i with ⟨nonzero, e⟩ | ⟨hA, hB, e⟩
  · exact iff_of_false (by simp [e]) (by tauto)
  · simp [e, hA, hB]

@[simp] theorem decodeAP_eq_ok {i : Byte → List Byte → Instr} :
    decodeAP c i = .ok j ↔ bField c.cmd = 0#8 ∧ i (aField c.cmd) c.pl = j := by
  rcases decodeAP_cases c i with ⟨hB, e⟩ | ⟨hB, e⟩ <;> simp [*]

end

/-! ### A word and a payload by their fields -/

/-- The fields of a word determine it (30_encoding.md R81). -/
theorem cmdWord_eq {w : Word} {op a b len : Byte} (hOp : opField w = op) (hA : aField w = a) (hB : bField w = b)
    (hLen : lenField w = len) : cmdWord op a b len = w := by
  rw [← hOp, ← hA, ← hB, ← hLen, cmdWord_fields]

/-- The length field counts the payload (30_encoding.md R80). -/
theorem lenField_eq_ofNat (c : Command) : lenField c.cmd = BitVec.ofNat 8 c.pl.length := by
  simp [command_len]

section
variable {c : Command} {op a b : Byte}

/-- A word whose length field is 0, by its fields, comes with no payload. -/
theorem word_of_no_payload (hOp : op = opField c.cmd) (hA : aField c.cmd = a) (hB : bField c.cmd = b)
    (hLen : lenField c.cmd = 0#8) : (cmdWord op a b 0, []) = (c.cmd, c.pl) := by
  have noPayload : c.pl = [] := List.eq_nil_of_length_eq_zero (by simp [command_len, hLen])
  exact Prod.ext (cmdWord_eq hOp.symm hA hB hLen) noPayload.symm

/-- A word, by its fields, with the payload that its length field counts. -/
theorem word_of_payload {p : List Byte} (hOp : op = opField c.cmd) (hA : aField c.cmd = a) (hB : bField c.cmd = b)
    (hp : c.pl = p) : (cmdWord op a b (BitVec.ofNat 8 p.length), p) = (c.cmd, c.pl) :=
  Prod.ext (cmdWord_eq hOp.symm hA hB (hp ▸ lenField_eq_ofNat c)) hp.symm

end

/-! ### The two directions, by format -/

/-- The decoder drops no bit: the word and the payload are those of the instruction it reads. -/
theorem encode_of_decode {c : Command} {i : Instr} (h : decode c = .ok i) : encode i = (c.cmd, c.pl) := by
  have op : opField (encodeWord i) = opField c.cmd := opField_encodeWord_of_decode h
  cases i with
  | rdst | subb | shrow | mixc | kexp | enc | rdstat =>
    simp only [encodeWord, opField_cmdWord] at op
    obtain ⟨hA, hB, hLen⟩ : aField c.cmd = 0#8 ∧ bField c.cmd = 0#8 ∧ lenField c.cmd = 0#8 := by
      simpa [decode, ← op] using h
    exact word_of_no_payload op hA hB hLen
  | sbox k | ark k | rdrk k =>
    simp only [encodeWord, opField_cmdWord] at op
    obtain ⟨hB, hLen, hA⟩ : bField c.cmd = 0#8 ∧ lenField c.cmd = 0#8 ∧ aField c.cmd = k := by
      simpa [decode, ← op] using h
    exact word_of_no_payload op hA hB hLen
  | gfadd a b | gfmul a b =>
    simp only [encodeWord, opField_cmdWord] at op
    obtain ⟨hLen, hA, hB⟩ : lenField c.cmd = 0#8 ∧ aField c.cmd = a ∧ bField c.cmd = b := by
      simpa [decode, ← op] using h
    exact word_of_no_payload op hA hB hLen
  | ldst p =>
    simp only [encodeWord, opField_cmdWord] at op
    obtain ⟨hA, hB, hp⟩ : aField c.cmd = 0#8 ∧ bField c.cmd = 0#8 ∧ c.pl = p := by
      simpa [decode, ← op] using h
    exact word_of_payload op hA hB hp
  | ldkey nk q =>
    simp only [encodeWord, opField_cmdWord] at op
    obtain ⟨hB, hA, hq⟩ : bField c.cmd = 0#8 ∧ aField c.cmd = nk ∧ c.pl = q := by
      simpa [decode, ← op] using h
    exact word_of_payload op hA hB hq

/-- A command on the port that is an instruction's encoding decodes to it. -/
theorem decode_of_encode {c : Command} {i : Instr} (h : encode i = (c.cmd, c.pl)) : decode c = .ok i := by
  obtain ⟨word, payload⟩ : c.cmd = encodeWord i ∧ c.pl = encodePayload i := by simp_all [encode]
  cases i <;> simp [decode, word, payload, encodeWord, encodePayload]

/-! ### The encoder on the port -/

/-- The port transfers a command's own word and payload as they are (30_encoding.md R80). -/
theorem encodeCommand_eq_of_encode {c : Command} {i : Instr} (h : encode i = (c.cmd, c.pl)) : encodeCommand i = c := by
  rw [encodeCommand, h]
  exact command_ext rfl (transfer_pl _ _ (command_len c))

/-- The length field of every encoded word counts its payload (30_encoding.md R90). -/
theorem encodedLength (i : Instr) : Laws.EncodedLength.Statement i := by
  cases i with
  | ldst p => exact Laws.EncodedLength.ldst p
  | ldkey nk q => exact Laws.EncodedLength.ldkey nk q
  | _ => exact fun _ => Laws.EncodedLength.of_no_payload _ _ _

/-- An instruction whose payload the length field can count decodes from its own word and payload. -/
theorem decode_transfer {i : Instr} {w : Word} (word : encodeWord i = w) (counted : (encodePayload i).length < 256) :
    decode (transfer w (encodePayload i)) = .ok i := by
  refine decode_of_encode (Prod.ext word ?_)
  exact (transfer_pl _ _ (word ▸ encodedLength i counted).symm).symm

/-- A well-formed payload has at most 32 bytes (30_encoding.md R82). -/
theorem payload_length_lt_of_wf {i : Instr} (h : i.wf = true) : (encodePayload i).length < 256 := by
  cases i with
  | ldst p =>
    have length : p.length = 16 := by simpa [Instr.wf] using h
    simp [encodePayload, length]
  | ldkey nk q =>
    obtain ⟨rfl | rfl | rfl, length⟩ : (nk = 4#8 ∨ nk = 6#8 ∨ nk = 8#8) ∧ q.length = 4 * nk.toNat := by
      simpa [Instr.wf, or_assoc] using h
    all_goals simp [encodePayload, length]
  | _ => simp [encodePayload]

/-- Settles O1: a well-formed payload is counted by the length field. -/
theorem decodeOfEncodeGivesTheCommand : Obligations.DecodeOfEncodeGivesTheCommand := fun _ wellFormed =>
  decode_transfer rfl (payload_length_lt_of_wf wellFormed)

/-- Settles O2, format by format in `encode_of_decode`. -/
theorem encodeOfDecodeGivesTheWord : Obligations.EncodeOfDecodeGivesTheWord := fun _ _ accepted =>
  encodeCommand_eq_of_encode (encode_of_decode accepted)

/-- Settles O3: each word is the encoder's for the command it stands for. -/
theorem writtenOutWordsDecode : Obligations.WrittenOutWordsDecode :=
  ⟨decode_transfer (i := .gfmul 0x57 0x83) (by decide) (by decide),
   decode_transfer (i := .sbox 0x53) (by decide) (by decide),
   decode_transfer (i := .ark 10) (by decide) (by decide),
   decode_transfer (i := .ldkey 4 (List.replicate 16 0xA5)) (by decide) (by decide),
   decode_transfer (i := .enc) (by decide) (by decide),
   decode_transfer (i := .rdstat) (by decide) (by decide)⟩

/-- Settles O4: a word is made of its own fields, most significant first. -/
theorem commandWordLayout : Obligations.CommandWordLayout := fun w =>
  calc w.toNat
    _ = (cmdWord (opField w) (aField w) (bField w) (lenField w)).toNat := by rw [cmdWord_fields]
    _ = _ := wordOfBytes_toNat _ _ _ _

/-! ### Words of the opcode table -/

theorem decode_of_decodeTableWord {nbits w : Nat} {i : Instr} (h : decodeTableWord nbits w = some i) :
    decode (commandOfTableWord nbits w) = .ok i := by
  unfold decodeTableWord at h
  split at h <;> simp_all

/-- Settles O7: the word placed is the command issued. -/
theorem fetchedTableWordIsExecuted : Obligations.FetchedTableWordIsExecuted := fun s _ _ _ read =>
  step_issued_of_decode_ok (decode_of_decodeTableWord read) s

end Sys2Proof.Machine
end

section
/-!
The answer to a command on the port: its code by the decoding procedure (30_encoding.md R85), its fields by the
command (R89).
-/

namespace Sys2Proof.Machine

open Sys2Proof.Safety

/-- The response to command `c` where the engine `e` accepts it (30_encoding.md R89). -/
def acceptedResponse (c : Command) (e : EngineState) : Response where
  rc := .ok
  val :=
    if opField c.cmd = 0x10#8 then (gfAdd (aField c.cmd) (bField c.cmd)).setWidth 32
    else if opField c.cmd = 0x11#8 then (gfMul (aField c.cmd) (bField c.cmd)).setWidth 32
    else if opField c.cmd = 0x20#8 then (subByte (aField c.cmd)).setWidth 32
    else if opField c.cmd = 0x60#8 then status e
    else 0
  data :=
    if opField c.cmd = 0x31#8 then bytesOfBlock e.ST
    else if opField c.cmd = 0x42#8 then bytesOfRoundKey (storedRoundKey e.W (aField c.cmd).toNat)
    else []

theorem acceptedResponse_data_length (c : Command) (e : EngineState) :
    (acceptedResponse c e).data.length = 0 ∨ (acceptedResponse c e).data.length = 16 := by
  unfold acceptedResponse
  dsimp only
  split
  · exact .inr (bytesOfBlock_length _)
  · split
    · exact .inr (bytesOfRoundKey_length _)
    · exact .inl rfl

/-- The result `k` in state `s` is the rejection with `code`, or, where that is `OK`, a next state with the one new
response `r`. -/
def Concludes (s : State) (code : RejectCode) (r : Response) (k : Result) : Prop :=
  ∃ t, k = .next t ∧ (code ≠ .ok → t = afterReject code s) ∧ (code = .ok → t.responses = r :: s.responses)

/-! ### Each check of the procedure is a guard of the meaning (30_encoding.md R85 steps 5 to 8) -/

section
variable {s : State} {code : RejectCode} {r : Response} {k : Result}

theorem concludes_reject (failed : code ≠ .ok) : Concludes s code r (reject code s) :=
  ⟨_, rfl, fun _ => rfl, fun ok => absurd ok failed⟩

theorem concludes_accept {val : Word} {data : List Byte} {u : State} (kept : u.responses = s.responses) :
    Concludes s .ok ⟨.ok, val, data⟩ (accept val data u) :=
  ⟨_, rfl, fun failed => absurd rfl failed, fun _ => congrArg _ kept⟩

theorem concludes_acceptQuiet (val : Word) : Concludes s .ok ⟨.ok, val, []⟩ (acceptQuiet val s) :=
  ⟨_, rfl, fun failed => absurd rfl failed, fun _ => rfl⟩

/-- A guard puts its own code in front of that of what it lets pass. -/
theorem concludes_guard {passes fails : Prop} [Decidable fails] {g : Result} {own : RejectCode}
    (answers : (passes ∧ g = k) ∨ (fails ∧ g = .next (afterReject own s))) (apart : passes → ¬ fails)
    (failed : own ≠ .ok) (h : Concludes s code r k) : Concludes s (if fails then own else code) r g := by
  rcases answers with ⟨pass, e⟩ | ⟨fail, e⟩ <;> rw [e]
  · rwa [if_neg (apart pass)]
  · rw [if_pos fail]
    exact concludes_reject failed

theorem concludes_requireState (h : Concludes s code r k) :
    Concludes s (if s.engine.SV = false then .eNoState else code) r (requireState s k) :=
  concludes_guard (requireState_cases s k) (by simp) (by decide) h

theorem concludes_requireKey (h : Concludes s code r k) :
    Concludes s (if s.engine.KV = false then .eNoKey else code) r (requireKey s k) :=
  concludes_guard (requireKey_cases s k) (by simp) (by decide) h

theorem concludes_requireSchedule (h : Concludes s code r k) :
    Concludes s (if s.engine.WV = false then .eNoSched else code) r (requireSchedule s k) :=
  concludes_guard (requireSchedule_cases s k) (by simp) (by decide) h

theorem concludes_requireRange {idx : Byte} (h : Concludes s code r k) :
    Concludes s (if idx.toNat > nkWords s.engine.NK + 6 then .eRange else code) r (requireRange idx s k) :=
  concludes_guard (requireRange_cases idx s k) (by simp) (by decide) h

/-- A check of the operands alone. -/
theorem concludes_check {p : Prop} [Decidable p] {own : RejectCode} (failed : own ≠ .ok) (h : Concludes s code r k) :
    Concludes s (if ¬ p then own else code) r (if p then k else reject own s) := by
  by_cases passes : p
  · simpa [passes] using h
  · simpa [passes] using concludes_reject failed

theorem concludes_execLdst (p : List Byte) (s : State) :
    Concludes s (if p.length ≠ 16 then .eLen else .ok) ⟨.ok, 0, []⟩ (execLdst p s) :=
  concludes_check (by decide) (concludes_accept rfl)

/-- `LDKEY` checks the key length it names, then its payload (30_encoding.md R85 steps 2 and 3). -/
theorem concludes_execLdkey (nk : Byte) (q : List Byte) (s : State) :
    Concludes s (if nk.toNat ∉ [4, 6, 8] then .eIllegal else if q.length ≠ 4 * nk.toNat then .eKeyLen else .ok)
      ⟨.ok, 0, []⟩ (execLdkey nk q s) := by
  by_cases inside : nk.toNat ∈ [4, 6, 8]
  · obtain ⟨n, named, words⟩ := keyLenOf_of_mem inside
    rw [if_neg (not_not.mpr inside), ← words, execLdkey, named]
    exact concludes_check (by decide) (concludes_accept rfl)
  · rw [if_pos inside, execLdkey, keyLenOf_of_not_mem inside]
    exact concludes_reject (by decide)

/-- The procedure's code and the response of R89 need only be computed from the word of the command read. -/
theorem concludes_of_word {code' : RejectCode} {r' : Response} (h : Concludes s code r k)
    (sameCode : code' = code := by simp [encodeWord, encodePayload])
    (sameResponse : r' = r := by simp [encodeWord]) : Concludes s code' r' k := by
  rwa [sameCode, sameResponse]

end

/-! ### The meaning of the command read (30_encoding.md R85 steps 2 to 9) -/

/-- The meaning of the command read makes the checks that are left, in the procedure's order. -/
theorem exec_concludes {c : Command} {i : Instr} (d : decode c = .ok i) (s : State) :
    Concludes s (procedureCode c s.engine) (acceptedResponse c s.engine) (exec i s) := by
  obtain ⟨word, payload⟩ : encodeWord i = c.cmd ∧ encodePayload i = c.pl := Prod.mk.inj (encode_of_decode d)
  have length : (lenField c.cmd).toNat = (encodePayload i).length := by rw [payload, command_len]
  simp only [procedureCode, acceptedResponse, illegalWord, opcodes, usesA, usesB, readsST, readsKW, readsW, length]
  rw [← word]
  cases i with
  | gfadd | gfmul | sbox => exact concludes_of_word (concludes_accept rfl)
  | ldst p => exact concludes_of_word (concludes_execLdst p s)
  | rdst | subb | shrow | mixc => exact concludes_of_word (concludes_requireState (concludes_accept rfl))
  | ark k =>
    exact concludes_of_word (concludes_requireState (concludes_requireSchedule (concludes_requireRange
      (concludes_accept rfl))))
  | ldkey nk q => exact concludes_of_word (concludes_execLdkey nk q s)
  | kexp => exact concludes_of_word (concludes_requireKey (concludes_accept rfl))
  | rdrk k => exact concludes_of_word (concludes_requireSchedule (concludes_requireRange (concludes_accept rfl)))
  | enc => exact concludes_of_word (concludes_requireState (concludes_requireKey (concludes_accept rfl)))
  | rdstat => exact concludes_of_word (concludes_acceptQuiet _)

/-! ### The decoder's rejections (30_encoding.md R85 steps 1, 2 and 4) -/

/-- `E_ILLEGAL` is the code of the illegal words alone (30_encoding.md R86, R87). -/
theorem procedureCode_eq_eIllegal {c : Command} {e : EngineState} :
    procedureCode c e = .eIllegal ↔ illegalWord c.cmd := by
  refine ⟨fun h => ?_, fun illegal => if_pos illegal⟩
  by_contra legal
  simp only [procedureCode, if_neg legal] at h
  split_ifs at h

section
variable {c : Command} {code : RejectCode} {op : Byte} (e : EngineState)

/-- Step 4 of the procedure, for a command without payload. -/
theorem procedureCode_of_length (legal : ¬ illegalWord c.cmd) (hOp : opField c.cmd = op)
    (noPayload : op ≠ 0x30#8 ∧ op ≠ 0x40#8) (hLen : lenField c.cmd ≠ 0#8) : procedureCode c e = .eLen := by
  have nonzero : (lenField c.cmd).toNat ≠ 0 := fun zero => hLen (BitVec.eq_of_toNat_eq zero)
  simp [procedureCode, legal, hOp, noPayload, nonzero]

theorem procedureCode_of_decodeZ {i : Instr} (hOp : opField c.cmd = op)
    (format : op ∈ opcodes ∧ op ∉ usesA ∧ op ∉ usesB) (noPayload : op ≠ 0x30#8 ∧ op ≠ 0x40#8)
    (d : decodeZ c i = .error code) : procedureCode c e = code := by
  rcases decodeZ_cases c i with ⟨nonzero, f⟩ | ⟨hA, hB, hLen, f⟩ | ⟨-, -, -, f⟩ <;> cases f.symm.trans d
  · exact procedureCode_eq_eIllegal.mpr (by simpa [illegalWord, hOp, format, noPayload] using nonzero)
  · exact procedureCode_of_length e (by simp [illegalWord, hOp, format, noPayload, hA, hB]) hOp noPayload hLen

theorem procedureCode_of_decodeA {i : Byte → Instr} (hOp : opField c.cmd = op)
    (format : op ∈ opcodes ∧ op ∈ usesA ∧ op ∉ usesB) (noPayload : op ≠ 0x30#8 ∧ op ≠ 0x40#8)
    (d : decodeA c i = .error code) : procedureCode c e = code := by
  rcases decodeA_cases c i with ⟨nonzero, f⟩ | ⟨hB, hLen, f⟩ | ⟨-, -, f⟩ <;> cases f.symm.trans d
  · exact procedureCode_eq_eIllegal.mpr (by simpa [illegalWord, hOp, format, noPayload] using nonzero)
  · exact procedureCode_of_length e (by simp [illegalWord, hOp, format, noPayload, hB]) hOp noPayload hLen

theorem procedureCode_of_decodeAB {i : Byte → Byte → Instr} (hOp : opField c.cmd = op)
    (format : op ∈ opcodes ∧ op ∈ usesA ∧ op ∈ usesB) (noPayload : op ≠ 0x30#8 ∧ op ≠ 0x40#8)
    (d : decodeAB c i = .error code) : procedureCode c e = code := by
  rcases decodeAB_cases c i with ⟨hLen, f⟩ | ⟨-, f⟩ <;> cases f.symm.trans d
  exact procedureCode_of_length e (by simp [illegalWord, hOp, format, noPayload]) hOp noPayload hLen

theorem procedureCode_of_decodeP {i : List Byte → Instr} (hOp : opField c.cmd = op)
    (format : op ∉ usesA ∧ op ∉ usesB) (d : decodeP c i = .error code) : procedureCode c e = code := by
  rcases decodeP_cases c i with ⟨nonzero, f⟩ | ⟨-, -, f⟩ <;> cases f.symm.trans d
  refine procedureCode_eq_eIllegal.mpr (.inr ?_)
  rcases nonzero with hA | hB
  · exact .inl ⟨hOp ▸ format.1, hA⟩
  · exact .inr (.inl ⟨hOp ▸ format.2, hB⟩)

theorem procedureCode_of_decodeAP {i : Byte → List Byte → Instr} (hOp : opField c.cmd = op)
    (format : op ∉ usesB) (d : decodeAP c i = .error code) : procedureCode c e = code := by
  rcases decodeAP_cases c i with ⟨hB, f⟩ | ⟨-, f⟩ <;> cases f.symm.trans d
  exact procedureCode_eq_eIllegal.mpr (.inr (.inr (.inl ⟨hOp ▸ format, hB⟩)))

/-- Where the decoder rejects a command, the procedure gives the same code, in every engine state. -/
theorem procedureCode_of_decode_error (d : decode c = .error code) : procedureCode c e = code := by
  rcases decode_cases c with ⟨op, f⟩ | ⟨op, f⟩ | ⟨op, f⟩ | ⟨op, f⟩ | ⟨op, f⟩ | ⟨op, f⟩ | ⟨op, f⟩ | ⟨op, f⟩ |
    ⟨op, f⟩ | ⟨op, f⟩ | ⟨op, f⟩ | ⟨op, f⟩ | ⟨op, f⟩ | ⟨op, f⟩ | ⟨op, f⟩ <;> rw [f] at d
  · exact procedureCode_of_decodeAB e op (by decide) (by decide) d
  · exact procedureCode_of_decodeAB e op (by decide) (by decide) d
  · exact procedureCode_of_decodeA e op (by decide) (by decide) d
  · exact procedureCode_of_decodeP e op (by decide) d
  · exact procedureCode_of_decodeZ e op (by decide) (by decide) d
  · exact procedureCode_of_decodeZ e op (by decide) (by decide) d
  · exact procedureCode_of_decodeZ e op (by decide) (by decide) d
  · exact procedureCode_of_decodeZ e op (by decide) (by decide) d
  · exact procedureCode_of_decodeA e op (by decide) (by decide) d
  · exact procedureCode_of_decodeAP e op (by decide) d
  · exact procedureCode_of_decodeZ e op (by decide) (by decide) d
  · exact procedureCode_of_decodeA e op (by decide) (by decide) d
  · exact procedureCode_of_decodeZ e op (by decide) (by decide) d
  · exact procedureCode_of_decodeZ e op (by decide) (by decide) d
  · cases d
    exact procedureCode_eq_eIllegal.mpr (.inl op)

end

/-! ### The step -/

/-- Every command on the port is rejected with the code of R85, or accepted with the response of R89. -/
theorem step_concludes (s : State) (c : Command) :
    Concludes s (procedureCode c s.engine) (acceptedResponse c s.engine) (step (issued c s)) := by
  cases d : decode c with
  | error code =>
    rw [step_issued_of_decode_error d, procedureCode_of_decode_error s.engine d]
    exact concludes_reject (ne_ok_of_decode_error d)
  | ok i =>
    rw [step_issued_of_decode_ok d]
    exact exec_concludes d s

/-- The one new response, by the procedure's code. -/
theorem step_responds (s : State) (c : Command) :
    ∃ r t, step (issued c s) = .next t ∧ t.responses = r :: s.responses ∧
      ((procedureCode c s.engine = .ok ∧ r = acceptedResponse c s.engine) ∨
        (procedureCode c s.engine ≠ .ok ∧ r = ⟨procedureCode c s.engine, 0, []⟩)) := by
  obtain ⟨t, e, rejected, accepted⟩ := step_concludes s c
  by_cases ok : procedureCode c s.engine = .ok
  · exact ⟨_, t, e, accepted ok, .inl ⟨ok, rfl⟩⟩
  · exact ⟨_, t, e, congrArg State.responses (rejected ok), .inr ⟨ok, rfl⟩⟩

/-- Settles O9: both kinds of response carry the procedure's code. -/
theorem stepFollowsTheDecodingProcedure : Obligations.StepFollowsTheDecodingProcedure := by
  intro s c
  obtain ⟨r, t, e, responded, ⟨ok, rfl⟩ | ⟨-, rfl⟩⟩ := step_responds s c
  · exact ⟨_, t, e, responded, ok.symm⟩
  · exact ⟨_, t, e, responded, rfl⟩

/-- Settles O5: the procedure gives `E_ILLEGAL` for the illegal words alone. -/
theorem illegalWordsAreRejectedWithEIllegal : Obligations.IllegalWordsAreRejectedWithEIllegal := by
  intro s c
  constructor
  · intro illegal
    obtain ⟨t, e, rejected, -⟩ := step_concludes s c
    rw [procedureCode_eq_eIllegal.mpr illegal] at rejected
    rw [e, rejected (by decide)]
  · intro legal
    obtain ⟨r, t, e, responded, code⟩ := stepFollowsTheDecodingProcedure s c
    exact ⟨r, t, e, responded, by rwa [code, Ne, procedureCode_eq_eIllegal]⟩

/-- Settles O13: the response is that of R89 or a rejection's. -/
theorem responseFieldsByCommand : Obligations.ResponseFieldsByCommand := by
  intro s c
  obtain ⟨r, t, e, responded, ⟨-, rfl⟩ | ⟨failed, rfl⟩⟩ := step_responds s c
  · refine ⟨_, t, e, responded, fun failed => absurd rfl failed, fun _ => ⟨rfl, rfl⟩, ?_⟩
    exact acceptedResponse_data_length c s.engine
  · exact ⟨_, t, e, responded, fun _ => ⟨rfl, rfl⟩, fun ok => absurd ok failed, .inl rfl⟩

end Sys2Proof.Machine
end

section
/-!
Command sequences on the port, and the pseudo-instruction `ENCRYPT` (30_encoding.md R91, 44_block_encrypt.md R200).
-/

namespace Sys2Proof.Machine

open Sys2Proof.Safety

/-! ### Runs -/

theorem run_succ {M : Host.Core} {s t : M.State} (next : M.step s = .next t) (n : Nat) :
    M.run (n + 1) s = M.run n t := by
  rw [Host.Core.run, next]

/-- A run of a command sequence goes on after the meaning of its first command. -/
theorem run_commands_cons {i : Instr} {l : List Instr} {s t : State} (n : Nat) (wellFormed : i.wf = true)
    (next : exec i { s with input := commands l } = .next t) (input : s.input = commands (i :: l)) :
    Host.Core.run core (n + 1) s = Host.Core.run core n t := by
  have onPort : s = issued (encodeCommand i) { s with input := commands l } := by
    rw [issued, show Event.command (encodeCommand i) :: commands l = s.input from input.symm]
  refine run_succ ?_ n
  change step s = .next t
  rw [onPort, step_issued_of_decode_ok (decodeOfEncodeGivesTheCommand i wellFormed), next]

/-! ### The commands of `ENCRYPT` where they are accepted -/

theorem exec_ldkey {nk : Byte} {n : KeyLen} {q : List Byte} (named : keyLenOf nk = some n)
    (length : q.length = 4 * nkWords n) (s : State) : exec (.ldkey nk q) s = accept 0 [] (loadKey n q s) := by
  simp [exec, execLdkey, named, length]

theorem exec_ldst {p : List Byte} (length : p.length = 16) (s : State) :
    exec (.ldst p) s = accept 0 [] (loadBlock (blockOfBytes p) s) :=
  if_pos length

theorem exec_enc {s : State} (valid : s.engine.SV = true) (keyed : s.engine.KV = true) :
    exec .enc s = accept 0 [] (discardSchedule
      (setBlock (encrypt s.engine.ST s.engine.KW (nkWords s.engine.NK)) s)) := by
  simp [exec, execEnc, requireState, requireKey, valid, keyed]

theorem exec_rdst {s : State} (valid : s.engine.SV = true) :
    exec .rdst s = accept 0 (bytesOfBlock s.engine.ST) s :=
  if_pos valid

/-- A loaded key encrypts as the key of its bytes: the words above the key are not read (44_block_encrypt.md R207). -/
theorem encrypt_loadKey (S : Block) (n : KeyLen) (q : List Byte) (s : State) :
    encrypt S (loadKey n q s).engine.KW (nkWords n) = encrypt S (keyOfBytes q) (nkWords n) :=
  encrypt_congr S fun j inKey => by simp [inKey, keyOfBytes]

/-- Settles O56: the four commands one after another, each accepted after those before it. -/
theorem encryptPseudoInstructionMeetsTheContract : Obligations.EncryptPseudoInstructionMeetsTheContract := by
  intro s nk q p size keyLength blockLength
  obtain ⟨n, named, words⟩ := keyLenOf_of_mem size
  have keyFits : q.length = 4 * nkWords n := by rw [words, keyLength]
  have keyWords : q.length / 4 = nkWords n := by omega
  have keyWf : (Instr.ldkey nk q).wf = true := by
    have legal : nk = 4#8 ∨ nk = 6#8 ∨ nk = 8#8 := by simpa [← BitVec.toNat_inj] using size
    simpa [Instr.wf, keyLength, or_assoc] using legal
  have blockWf : (Instr.ldst p).wf = true := by simp [Instr.wf, blockLength]
  refine ⟨_, (run_commands_cons 3 keyWf (exec_ldkey named keyFits _) rfl).trans <|
    (run_commands_cons 2 blockWf (exec_ldst blockLength _) rfl).trans <|
    (run_commands_cons 1 rfl (exec_enc rfl rfl) rfl).trans <|
    (run_commands_cons 0 rfl (exec_rdst rfl) rfl), ?_⟩
  simp [keyWords, encrypt_loadKey]

end Sys2Proof.Machine
end

section
/-!
The field GF(2^8): addition, `xtime` and the product are linear, and every byte is a sum of powers of x, so the laws
of the field need only be shown on 1, under `xtime` and under addition (40_gf_arithmetic.md R111 to R118).
-/

namespace Sys2Proof.Machine

open Sys2Proof.Safety

/-! ### Linearity -/

section
variable {w : Nat}

/-- Adding `m` to a sum where exactly one of two conditions holds is adding it to the summands whose condition holds. -/
theorem xor_addIf_bne (b c : Bool) (p q m : BitVec w) :
    (if b ^^ c then (p ^^^ q) ^^^ m else p ^^^ q) =
      (if b then p ^^^ m else p) ^^^ (if c then q ^^^ m else q) := by
  cases b <;> cases c <;> simp only [Bool.bne_true, Bool.bne_false, Bool.not_false, Bool.not_true, if_true,
    Bool.false_eq_true, if_false]
  · ac_rfl
  · ac_rfl
  · calc p ^^^ q = (p ^^^ q) ^^^ (m ^^^ m) := by rw [BitVec.xor_self, BitVec.xor_zero]
      _ = (p ^^^ m) ^^^ (q ^^^ m) := by ac_rfl

/-- Under one condition, adding a sum of two is adding one to each summand. -/
theorem xor_addIf (b : Bool) (p q m n : BitVec w) :
    (if b then (p ^^^ q) ^^^ (m ^^^ n) else p ^^^ q) =
      (if b then p ^^^ m else p) ^^^ (if b then q ^^^ n else q) := by
  cases b with
  | false => rfl
  | true => simp only [if_true]; ac_rfl

end

theorem xtime_xor (a b : Byte) : xtime (a ^^^ b) = xtime a ^^^ xtime b := by
  simp only [xtime, BitVec.getLsbD_xor, BitVec.shiftLeft_xor_distrib, xor_addIf_bne]

theorem gfReduceLoop_xor (n : Nat) (p q : BitVec 15) :
    gfReduceLoop n (p ^^^ q) = gfReduceLoop n p ^^^ gfReduceLoop n q := by
  induction n generalizing p q with
  | zero => rfl
  | succ n ih => simp only [gfReduceLoop, BitVec.getLsbD_xor, xor_addIf_bne, ih]

theorem gfReduce_xor (p q : BitVec 15) : gfReduce (p ^^^ q) = gfReduce p ^^^ gfReduce q := by
  simp only [gfReduce, gfReduceLoop_xor, BitVec.setWidth_xor]

theorem gfMulLoop_xor_left (n : Nat) (acc acc' x x' y : Byte) :
    gfMulLoop n (acc ^^^ acc') (x ^^^ x') y = gfMulLoop n acc x y ^^^ gfMulLoop n acc' x' y := by
  induction n generalizing acc acc' x x' y with
  | zero => rfl
  | succ n ih => simp only [gfMulLoop, xtime_xor, xor_addIf, ih]

theorem gfMulLoop_xor_right (n : Nat) (acc acc' x y y' : Byte) :
    gfMulLoop n (acc ^^^ acc') x (y ^^^ y') = gfMulLoop n acc x y ^^^ gfMulLoop n acc' x y' := by
  induction n generalizing acc acc' x y y' with
  | zero => rfl
  | succ n ih => simp only [gfMulLoop, BitVec.getLsbD_xor, BitVec.ushiftRight_xor_distrib, xor_addIf_bne, ih]

theorem gfMulLoop_xtime (n : Nat) (acc x y : Byte) :
    gfMulLoop n (xtime acc) (xtime x) y = xtime (gfMulLoop n acc x y) := by
  induction n generalizing acc x y with
  | zero => rfl
  | succ n ih => rw [gfMulLoop, gfMulLoop, ← ih, apply_ite xtime, xtime_xor]

/-! ### The product on sums and on multiples of x -/

theorem gfMul_xor_left (a b c : Byte) : gfMul (a ^^^ b) c = gfMul a c ^^^ gfMul b c :=
  gfMulLoop_xor_left 8 0 0 a b c

theorem gfMul_xor_right (a b c : Byte) : gfMul a (b ^^^ c) = gfMul a b ^^^ gfMul a c :=
  gfMulLoop_xor_right 8 0 0 a b c

theorem gfMul_xtime_left (a b : Byte) : gfMul (xtime a) b = xtime (gfMul a b) :=
  gfMulLoop_xtime 8 0 a b

theorem gfMul_zero_left (b : Byte) : gfMul 0 b = 0 := by
  simpa using gfMul_xor_left 0 0 b

/-- Multiplying 1 by `b` puts `b` together again from its powers of x. -/
theorem gfMul_one_left : ∀ b : Byte, gfMul 1 b = b := by decide +kernel

/-- What the multiplier's loop computes is reached from its operands by addition and `xtime`. -/
theorem gfMulLoop_induction {P : Byte → Prop} (shift : ∀ u, P u → P (xtime u))
    (add : ∀ u v, P u → P v → P (u ^^^ v)) (n : Nat) {acc x : Byte} (y : Byte) (hacc : P acc) (hx : P x) :
    P (gfMulLoop n acc x y) := by
  induction n generalizing acc x y with
  | zero => exact hacc
  | succ n ih =>
    refine ih _ ?_ (shift x hx)
    split
    · exact add acc x hacc hx
    · exact hacc

/-- Every byte is reached from 1 by `xtime` and addition. -/
theorem byte_induction {P : Byte → Prop} (one : P 1) (shift : ∀ u, P u → P (xtime u))
    (add : ∀ u v, P u → P v → P (u ^^^ v)) (a : Byte) : P a := by
  have zero : P 0 := add 1 1 one one
  rw [← gfMul_one_left a]
  exact gfMulLoop_induction shift add 8 a zero one

theorem gfMul_xtime_right (a b : Byte) : gfMul a (xtime b) = xtime (gfMul a b) := by
  induction a using byte_induction with
  | one => simp only [gfMul_one_left]
  | shift u ih => simp only [gfMul_xtime_left, ih]
  | add u v ihu ihv => simp only [gfMul_xor_left, xtime_xor, ihu, ihv]

theorem gfMul_one_right (a : Byte) : gfMul a 1 = a := by
  induction a using byte_induction with
  | one => exact gfMul_one_left 1
  | shift u ih => rw [gfMul_xtime_left, ih]
  | add u v ihu ihv => rw [gfMul_xor_left, ihu, ihv]

theorem gfMul_comm (a b : Byte) : gfMul a b = gfMul b a := by
  induction a using byte_induction with
  | one => rw [gfMul_one_left, gfMul_one_right]
  | shift u ih => rw [gfMul_xtime_left, gfMul_xtime_right, ih]
  | add u v ihu ihv => rw [gfMul_xor_left, gfMul_xor_right, ihu, ihv]

theorem gfMul_zero_right (a : Byte) : gfMul a 0 = 0 := by rw [gfMul_comm, gfMul_zero_left]

theorem gfMul_assoc (a b c : Byte) : gfMul (gfMul a b) c = gfMul a (gfMul b c) := by
  induction a using byte_induction with
  | one => simp only [gfMul_one_left]
  | shift u ih => simp only [gfMul_xtime_left, ih]
  | add u v ihu ihv => simp only [gfMul_xor_left, ihu, ihv]

/-! ### The inverse -/

def gfSquare (a : Byte) : Byte := gfMul a a

/-- The power 254 of `a`, by seven times taking `r` to the square of `a · r`. It is the inverse of a non-zero `a`: the
non-zero bytes are a group of 255 elements. -/
def gfInv (a : Byte) : Byte := (fun r => gfSquare (gfMul a r))^[7] 1

theorem gfMul_gfInv : ∀ a : Byte, a ≠ 0 → gfMul a (gfInv a) = 1 := by decide +kernel

theorem eq_zero_of_gfMul_eq_zero {a b : Byte} (h : gfMul a b = 0) (nonzero : a ≠ 0) : b = 0 := by
  calc b = gfMul (gfMul (gfInv a) a) b := by rw [gfMul_comm (gfInv a), gfMul_gfInv a nonzero, gfMul_one_left]
    _ = gfMul (gfInv a) (gfMul a b) := gfMul_assoc _ _ _
    _ = 0 := by rw [h, gfMul_zero_right]

/-- Settles O40: the laws on the generators 1, `xtime` and addition of the bytes, and the inverse. -/
theorem fieldLaws : Obligations.FieldLaws := fun a b c =>
  ⟨BitVec.xor_comm a b, BitVec.xor_zero, BitVec.xor_self, gfMul_comm a b, gfMul_one_right a, gfMul_zero_right a,
    gfMul_zero_left a, BitVec.xor_assoc a b c, gfMul_assoc a b c, gfMul_xor_left a b c,
    fun h => or_iff_not_imp_left.mpr (eq_zero_of_gfMul_eq_zero h)⟩

/-! ### The reduction (40_gf_arithmetic.md R113) -/

/-- The steps for bits that are clear do nothing. -/
theorem gfReduceLoop_add_of_clear (n k : Nat) {p : BitVec 15} (clear : ∀ j, 8 + n ≤ j → p.getLsbD j = false) :
    gfReduceLoop (n + k) p = gfReduceLoop n p := by
  induction k with
  | zero => rfl
  | succ k ih => rw [← Nat.add_assoc, gfReduceLoop, clear _ (by omega), if_neg Bool.false_ne_true, ih]

/-- Reducing a multiple of x: all steps but the last are those of the polynomial itself, one bit higher. -/
theorem gfReduceLoop_shiftLeft_one {n : Nat} (fits : n ≤ 6) (p : BitVec 15) :
    gfReduceLoop (n + 1) (p <<< 1) = gfReduceLoop 1 (gfReduceLoop n p <<< 1) := by
  induction n generalizing p with
  | zero => rfl
  | succ n ih =>
    have bit : (p <<< 1).getLsbD (8 + (n + 1)) = p.getLsbD (8 + n) := by
      rw [← Nat.add_assoc, BitVec.getLsbD_shiftLeft]
      simp [show 8 + n + 1 < 15 by omega]
    calc gfReduceLoop (n + 1 + 1) (p <<< 1)
        = gfReduceLoop (n + 1) ((if p.getLsbD (8 + n) then p ^^^ (0x11B#15 <<< n) else p) <<< 1) := by
          rw [gfReduceLoop, bit, BitVec.shiftLeft_add, ← BitVec.shiftLeft_xor_distrib,
            apply_ite (fun q : BitVec 15 => q <<< 1)]
      _ = gfReduceLoop 1 (gfReduceLoop (n + 1) p <<< 1) := ih (by omega) _

/-- `xtime` is the reduction's last step (40_gf_arithmetic.md R114). -/
theorem gfReduceLoop_one_shiftLeft : ∀ v : Byte,
    gfReduceLoop 1 (v.setWidth 15 <<< 1) = (xtime v).setWidth 15 := by decide +kernel

theorem gfReduceLoop_shiftLeft {i : Nat} (fits : i ≤ 7) (a : Byte) :
    gfReduceLoop i (a.setWidth 15 <<< i) = (xtime^[i] a).setWidth 15 := by
  induction i with
  | zero => simp [gfReduceLoop]
  | succ i ih =>
    rw [BitVec.shiftLeft_add, gfReduceLoop_shiftLeft_one (by omega), ih (by omega), gfReduceLoop_one_shiftLeft,
      Function.iterate_succ_apply']

/-- The reduced partial product: `a` times x^`i` (40_gf_arithmetic.md R116). -/
theorem gfReduce_shiftLeft {i : Nat} (fits : i ≤ 7) (a : Byte) :
    gfReduce (a.setWidth 15 <<< i) = xtime^[i] a := by
  have clear : ∀ j, 8 + i ≤ j → (a.setWidth 15 <<< i).getLsbD j = false := fun j above => by
    simp [BitVec.getLsbD_of_ge a (j - i) (by omega)]
  obtain ⟨k, split⟩ := Nat.exists_eq_add_of_le fits
  rw [gfReduce, split, gfReduceLoop_add_of_clear i k clear, gfReduceLoop_shiftLeft fits]
  simp

/-! ### The two formulations of the product (40_gf_arithmetic.md R116) -/

/-- Both loops add the partial product of bit `i`, the one before and the other after reduction. -/
theorem gfReduce_polyMultLoop (a b : Byte) {n i : Nat} (fits : i + n ≤ 8) (p : BitVec 15) :
    gfReduce (polyMultLoop a b n i p) = gfMulLoop n (gfReduce p) (xtime^[i] a) (b >>> i) := by
  induction n generalizing i p with
  | zero => rfl
  | succ n ih =>
    have bit : (b >>> i).getLsbD 0 = b.getLsbD i := by simp
    rw [polyMultLoop, ih (by omega), gfMulLoop, bit, apply_ite gfReduce, gfReduce_xor, gfReduce_shiftLeft (by omega),
      Function.iterate_succ_apply', BitVec.shiftRight_add]

/-- Settles O39: the loops run side by side from `p = 0` and `acc = 0`. -/
theorem twoStageMultiplierAgrees : Obligations.TwoStageMultiplierAgrees := fun a b =>
  (gfReduce_polyMultLoop a b (n := 8) (i := 0) le_rfl 0).symm

/-! ### The products by the constants of the mix matrix (40_gf_arithmetic.md R118) -/

theorem gfMul_two_left (v : Byte) : gfMul 2 v = xtime v :=
  calc gfMul 2 v = xtime (gfMul 1 v) := gfMul_xtime_left 1 v
    _ = xtime v := by rw [gfMul_one_left]

theorem gfMul_three_left (v : Byte) : gfMul 3 v = xtime v ^^^ v :=
  calc gfMul 3 v = gfMul 2 v ^^^ gfMul 1 v := gfMul_xor_left 2 1 v
    _ = xtime v ^^^ v := by rw [gfMul_two_left, gfMul_one_left]

/-- Settles O41: 2 is x and 3 is x + 1, and the product is linear and commutative. -/
theorem productsByTheMixConstants : Obligations.ProductsByTheMixConstants := fun v =>
  ⟨rfl, (gfReduce_shiftLeft (i := 1) (by decide) v).symm, gfMul_one_left v, gfMul_two_left v, gfMul_three_left v,
    gfMul_one_right v, (gfMul_comm v 2).trans (gfMul_two_left v), (gfMul_comm v 3).trans (gfMul_three_left v)⟩

/-! ### `GFADD` and `GFMUL` on the port (40_gf_arithmetic.md R121, R122) -/

/-- A command of format `AB`: a length that is not 0 is rejected, and the meaning follows where it is 0
(30_encoding.md R82). -/
theorem step_of_decodeAB {c : Command} {i : Byte → Byte → Instr} (format : decode c = decodeAB c i) {s t : State}
    (meaning : exec (i (aField c.cmd) (bField c.cmd)) s = .next t) :
    step (issued c s) = .next (if lenField c.cmd ≠ 0#8 then afterReject .eLen s else t) := by
  rcases decodeAB_cases c i with ⟨hLen, e⟩ | ⟨hLen, e⟩
  · rw [step_issued_of_decode_error (format.trans e), if_pos hLen]
  · rw [step_issued_of_decode_ok (format.trans e), if_neg (not_not.mpr hLen), meaning]

theorem exec_gfadd (a b : Byte) (s : State) :
    exec (.gfadd a b) s = .next (afterAccept ((a ^^^ b).setWidth 32) [] s.engine s) := rfl

theorem exec_gfmul (a b : Byte) (s : State) :
    exec (.gfmul a b) s = .next (afterAccept ((gfMul a b).setWidth 32) [] s.engine s) := rfl

/-- Settles O15: format `AB` with the meaning of `GFADD`. -/
theorem gfaddFollowsItsRule : Obligations.GfaddFollowsItsRule :=
  ⟨fun s _ op => step_of_decodeAB (decode_gfadd op) (exec_gfadd _ _ s), fun s a b => exec_gfadd a b s⟩

/-- Settles O16: format `AB` with the meaning of `GFMUL`. -/
theorem gfmulFollowsItsRule : Obligations.GfmulFollowsItsRule :=
  ⟨fun s _ op => step_of_decodeAB (decode_gfmul op) (exec_gfmul _ _ s), fun s a b => exec_gfmul a b s⟩

end Sys2Proof.Machine
end

section
/-!
The substitution: the command `SBOX`, the table as the affine map of the field's inverse, and the substitution and
rotation of words (41_sbox.md, 43_key_schedule.md R170).
-/

namespace Sys2Proof.Machine

open Sys2Proof.Safety

/-! ### `SBOX` on the port (41_sbox.md R134) -/

/-- A command of format `A`: a `B` that is not 0 is rejected, then a length that is not 0, and the meaning follows
where both are 0 (30_encoding.md R82, R85). -/
theorem step_of_decodeA {c : Command} {i : Byte → Instr} (format : decode c = decodeA c i) {s t : State}
    (meaning : exec (i (aField c.cmd)) s = .next t) :
    step (issued c s) = .next (
      if bField c.cmd ≠ 0#8 then afterReject .eIllegal s
      else if lenField c.cmd ≠ 0#8 then afterReject .eLen s
      else t) := by
  rcases decodeA_cases c i with ⟨hB, e⟩ | ⟨hB, hLen, e⟩ | ⟨hB, hLen, e⟩
  · rw [step_issued_of_decode_error (format.trans e), if_pos hB]
  · rw [step_issued_of_decode_error (format.trans e), if_neg (not_not.mpr hB), if_pos hLen]
  · rw [step_issued_of_decode_ok (format.trans e), if_neg (not_not.mpr hB), if_neg (not_not.mpr hLen), meaning]

theorem exec_sbox (a : Byte) (s : State) :
    exec (.sbox a) s = .next (afterAccept ((subByte a).setWidth 32) [] s.engine s) := rfl

/-- Settles O17: format `A` with the meaning of `SBOX`. -/
theorem sboxFollowsItsRule : Obligations.SboxFollowsItsRule :=
  ⟨fun s _ op => step_of_decodeA (decode_sbox op) (exec_sbox _ s), fun s a => exec_sbox a s⟩

/-! ### The table is the affine map of the inverse (41_sbox.md R135) -/

/-- The affine map of 41_sbox.md R135. -/
def sboxAffine (u : Byte) : Byte :=
  u ^^^ u.rotateLeft 1 ^^^ u.rotateLeft 2 ^^^ u.rotateLeft 3 ^^^ u.rotateLeft 4 ^^^ 0x63

/-- The table itself, entry by entry; `gfInv` sends 0 to 0. -/
theorem subByte_eq_sboxAffine_gfInv : ∀ v : Byte, subByte v = sboxAffine (gfInv v) := by decide +kernel

theorem gfInv_zero : gfInv 0 = 0 := by decide +kernel

/-- The inverse in the field is unique. -/
theorem eq_gfInv_of_gfMul_eq_one {v u : Byte} (nonzero : v ≠ 0) (h : gfMul v u = 1) : u = gfInv v :=
  calc u = gfMul (gfMul (gfInv v) v) u := by rw [gfMul_comm (gfInv v), gfMul_gfInv v nonzero, gfMul_one_left]
    _ = gfMul (gfInv v) (gfMul v u) := gfMul_assoc _ _ _
    _ = gfInv v := by rw [h, gfMul_one_right]

/-- Settles O43: the inverse of `v` is `gfInv v`. -/
theorem substitutionIsInverseThenAffine : Obligations.SubstitutionIsInverseThenAffine := by
  intro v u inverse
  have hu : u = gfInv v := by
    rcases inverse with ⟨rfl, rfl⟩ | ⟨nonzero, product⟩
    · exact gfInv_zero.symm
    · exact eq_gfInv_of_gfMul_eq_one nonzero product
  rw [hu]
  exact subByte_eq_sboxAffine_gfInv v

/-! ### The substitution permutes the bytes (41_sbox.md R132) -/

theorem gfInv_ne_zero {v : Byte} (nonzero : v ≠ 0) : gfInv v ≠ 0 := by
  intro zero
  have product := gfMul_gfInv v nonzero
  rw [zero, gfMul_zero_right] at product
  exact absurd product (by decide)

/-- `v` is the inverse of its inverse. -/
theorem gfInv_involutive : Function.Involutive gfInv := by
  intro v
  by_cases zero : v = 0
  · rw [zero, gfInv_zero, gfInv_zero]
  · have product : gfMul (gfInv v) v = 1 := (gfMul_comm _ _).trans (gfMul_gfInv v zero)
    exact (eq_gfInv_of_gfMul_eq_one (gfInv_ne_zero zero) product).symm

/-- The inverse of the affine map: with `r` the rotation by one bit, r + r^3 + r^6 is the inverse of
1 + r + r^2 + r^3 + r^4 modulo r^8 + 1. -/
def sboxAffineInv (b : Byte) : Byte := b.rotateLeft 1 ^^^ b.rotateLeft 3 ^^^ b.rotateLeft 6 ^^^ 0x05

theorem sboxAffineInv_sboxAffine : Function.LeftInverse sboxAffineInv sboxAffine := by
  unfold Function.LeftInverse
  decide +kernel

theorem sboxAffine_sboxAffineInv : Function.RightInverse sboxAffineInv sboxAffine := by
  unfold Function.RightInverse Function.LeftInverse
  decide +kernel

theorem sboxAffine_bijective : Function.Bijective sboxAffine :=
  ⟨sboxAffineInv_sboxAffine.injective, sboxAffine_sboxAffineInv.surjective⟩

theorem subByte_bijective : Function.Bijective subByte := by
  rw [show subByte = sboxAffine ∘ gfInv from funext subByte_eq_sboxAffine_gfInv]
  exact sboxAffine_bijective.comp gfInv_involutive.bijective

theorem subByte_ne_self : ∀ v : Byte, subByte v ≠ v := by decide +kernel

theorem subByte_ne_complement : ∀ v : Byte, subByte v ≠ v ^^^ 0xFF := by decide +kernel

/-- Settles O42: the affine map and the inverse are bijections; the fixed points are excluded entry by entry. -/
theorem substitutionIsAPermutation : Obligations.SubstitutionIsAPermutation :=
  ⟨subByte_bijective, subByte_ne_self, subByte_ne_complement⟩

/-! ### Words (41_sbox.md R133, 43_key_schedule.md R170) -/

theorem byteOf_subWord (w : Word) (j : Fin 4) : byteOf (subWord w) j = subByte (byteOf w j) := by
  rw [subWord, byteOf_wordOfBytes]
  fin_cases j <;> rfl

/-- The lower three bytes move up by 8 bits, and the most significant byte is `w div 2^24`. -/
theorem rotWord_toNat (w : Word) : (rotWord w).toNat = w.toNat * 2 ^ 8 % 2 ^ 32 + w.toNat / 2 ^ 24 := by
  have fits : w.toNat < 2 ^ 32 := w.isLt
  simp only [rotWord, wordOfBytes_toNat, byteOf_toNat, Fin.val_zero, Fin.val_one, Fin.val_two,
    show (3 : Fin 4).val = 3 from rfl]
  omega

/-- Settles O49, byte by byte and as a number. -/
theorem wordSubstitutionAndRotation : Obligations.WordSubstitutionAndRotation := ⟨byteOf_subWord, rotWord_toNat⟩

end Sys2Proof.Machine
end

section
/-!
The four transformations of the state matrix, cell by cell, and their powers (42_state_ops.md R142 to R145).
-/

namespace Sys2Proof.Machine

/-! ### `sub_bytes` (42_state_ops.md R142) -/

@[simp] theorem cell_subBytes (S : Block) (r c : Fin 4) : cell (subBytes S) r c = subByte (cell S r c) :=
  cell_mkBlock _ r c

/-- Settles O44: a block made cell by cell has those cells. -/
theorem subBytesCellByCell : Obligations.SubBytesCellByCell := cell_subBytes

/-! ### `shift_rows` (42_state_ops.md R143) -/

@[simp] theorem cell_shiftRows (S : Block) (r c : Fin 4) : cell (shiftRows S) r c = cell S r (c + r) :=
  cell_mkBlock _ r c

/-- Four rotations of row `r` are one by `4 r` positions: full turns. -/
theorem shiftRows_four_times (S : Block) : shiftRows (shiftRows (shiftRows (shiftRows S))) = S := by
  refine block_ext fun r c => ?_
  have fullTurns : ∀ r c : Fin 4, c + r + r + r + r = c := by decide
  simp only [cell_shiftRows, fullTurns]

theorem shiftRows_subBytes (S : Block) : shiftRows (subBytes S) = subBytes (shiftRows S) :=
  block_ext fun r c => by simp only [cell_shiftRows, cell_subBytes]

/-- Settles O45, cell by cell; the rule's example is computed. -/
theorem shiftRowsRotatesLeft : Obligations.ShiftRowsRotatesLeft :=
  ⟨cell_shiftRows, fun S c => by rw [cell_shiftRows, add_zero], shiftRows_four_times, shiftRows_subBytes,
    by decide +kernel⟩

/-! ### `add_round_key` (42_state_ops.md R145) -/

@[simp] theorem cell_addRoundKey (S : Block) (K : RoundKey) (r c : Fin 4) :
    cell (addRoundKey S K) r c = cell S r c ^^^ byteOf K[c.val] r :=
  cell_mkBlock _ r c

theorem byteOf_xor (v w : Word) (j : Fin 4) : byteOf (v ^^^ w) j = byteOf v j ^^^ byteOf w j :=
  BitVec.extractLsb'_xor

theorem column_addRoundKey (S : Block) (K : RoundKey) (c : Fin 4) :
    column (addRoundKey S K) c = column S c ^^^ K[c.val] :=
  word_ext fun r => by rw [byteOf_xor, byteOf_column, byteOf_column, cell_addRoundKey]

theorem addRoundKey_addRoundKey (S : Block) (K : RoundKey) : addRoundKey (addRoundKey S K) K = S :=
  block_ext fun r c => by rw [cell_addRoundKey, cell_addRoundKey, xor_cancel_right]

/-- Settles O47: byte `n` of the byte view is a cell, and byte `n` of the round key the byte added to it. -/
theorem addRoundKeyXorsTheColumns : Obligations.AddRoundKeyXorsTheColumns :=
  ⟨column_addRoundKey, cell_addRoundKey, fun S K _ => cell_addRoundKey S K _ _, addRoundKey_addRoundKey⟩

/-! ### `mix_columns` (42_state_ops.md R144) -/

theorem cell_mixColumns (S : Block) (r c : Fin 4) :
    cell (mixColumns S) r c =
      gfMul (cell mixMatrix r 0) (cell S 0 c) ^^^ gfMul (cell mixMatrix r 1) (cell S 1 c)
        ^^^ gfMul (cell mixMatrix r 2) (cell S 2 c) ^^^ gfMul (cell mixMatrix r 3) (cell S 3 c) :=
  cell_mkBlock _ r c

/-- The matrix is circulant: from the diagonal on, each row reads 02 03 01 01. -/
theorem mixMatrix_circulant : ∀ r : Fin 4, cell mixMatrix r r = 2 ∧ cell mixMatrix r (r + 1) = 3 ∧
    cell mixMatrix r (r + 2) = 1 ∧ cell mixMatrix r (r + 3) = 1 := by decide

/-- The sum over the four rows may start at any row. -/
theorem xor_rows_rotate (f : Fin 4 → Byte) :
    ∀ r, f 0 ^^^ f 1 ^^^ f 2 ^^^ f 3 = f r ^^^ f (r + 1) ^^^ f (r + 2) ^^^ f (r + 3)
  | 0 => rfl
  | 1 => show _ = f 1 ^^^ f 2 ^^^ f 3 ^^^ f 0 by ac_rfl
  | 2 => show _ = f 2 ^^^ f 3 ^^^ f 0 ^^^ f 1 by ac_rfl
  | 3 => show _ = f 3 ^^^ f 0 ^^^ f 1 ^^^ f 2 by ac_rfl

/-- The sum of the four cells of column `c`. -/
def columnSum (S : Block) (c : Fin 4) : Byte := cell S 0 c ^^^ cell S 1 c ^^^ cell S 2 c ^^^ cell S 3 c

/-- One formula for all four rows: 02 is x, 03 is x + 1, and the two cells multiplied by 01 are what the sum of the
column has besides the other two. -/
theorem cell_mixColumns_eq_xtime (S : Block) (r c : Fin 4) :
    cell (mixColumns S) r c = xtime (cell S r c ^^^ cell S (r + 1) c) ^^^ (cell S r c ^^^ columnSum S c) := by
  obtain ⟨diagonal, next, third, last⟩ := mixMatrix_circulant r
  have others : cell S r c ^^^ columnSum S c = cell S (r + 1) c ^^^ cell S (r + 2) c ^^^ cell S (r + 3) c := by
    rw [columnSum, xor_rows_rotate (fun k => cell S k c) r]
    simp only [BitVec.xor_assoc, xor_cancel_left]
  rw [others, cell_mixColumns, xor_rows_rotate (fun k => gfMul (cell mixMatrix r k) (cell S k c)) r, diagonal, next,
    third, last, gfMul_two_left, gfMul_three_left, gfMul_one_left, gfMul_one_left, xtime_xor]
  ac_rfl

/-- Each row of the matrix adds up to 01. -/
theorem cell_mixColumns_of_column_eq (S : Block) (c : Fin 4) (equal : ∀ r, cell S r c = cell S 0 c) (r : Fin 4) :
    cell (mixColumns S) r c = cell S r c := by
  rw [cell_mixColumns_eq_xtime, columnSum, equal r, equal (r + 1), equal 1, equal 2, equal 3, xtime_xor]
  simp

/-- Settles O46: the rows of the matrix; the rule's columns are computed. -/
theorem mixColumnsIsTheMatrixProduct : Obligations.MixColumnsIsTheMatrixProduct :=
  ⟨fun S c => ⟨cell_mixColumns S 0 c, cell_mixColumns S 1 c, cell_mixColumns S 2 c, cell_mixColumns S 3 c⟩,
    cell_mixColumns_of_column_eq, by decide +kernel⟩

/-- What two neighbours have in common, the sum of the column and a multiple of x, cancels. -/
theorem cell_mixColumns_xor_next (S : Block) (r c : Fin 4) :
    cell (mixColumns S) r c ^^^ cell (mixColumns S) (r + 1) c =
      xtime (cell S r c ^^^ cell S (r + 2) c) ^^^ (cell S r c ^^^ cell S (r + 1) c) := by
  have afterNext : r + 1 + 1 = r + 2 := add_assoc r 1 1
  rw [cell_mixColumns_eq_xtime, cell_mixColumns_eq_xtime, afterNext]
  generalize cell S r c = u, cell S (r + 1) c = v, cell S (r + 2) c = w, columnSum S c = t
  calc xtime (u ^^^ v) ^^^ (u ^^^ t) ^^^ (xtime (v ^^^ w) ^^^ (v ^^^ t))
    _ = (xtime (u ^^^ v) ^^^ xtime (v ^^^ w)) ^^^ ((u ^^^ v) ^^^ (t ^^^ t)) := by ac_rfl
    _ = xtime (u ^^^ w) ^^^ (u ^^^ v) := by
      rw [← xtime_xor]
      simp [BitVec.xor_assoc]

/-- Each column of the matrix adds up to 01. -/
theorem columnSum_mixColumns (S : Block) (c : Fin 4) : columnSum (mixColumns S) c = columnSum S c := by
  calc columnSum (mixColumns S) c
    _ = (cell (mixColumns S) 0 c ^^^ cell (mixColumns S) 1 c)
        ^^^ (cell (mixColumns S) 2 c ^^^ cell (mixColumns S) 3 c) := BitVec.xor_assoc _ _ _
    _ = (xtime (cell S 0 c ^^^ cell S 2 c) ^^^ (cell S 0 c ^^^ cell S 1 c))
        ^^^ (xtime (cell S 2 c ^^^ cell S 0 c) ^^^ (cell S 2 c ^^^ cell S 3 c)) :=
      congrArg₂ (· ^^^ ·) (cell_mixColumns_xor_next S 0 c) (cell_mixColumns_xor_next S 2 c)
    _ = (xtime (cell S 0 c ^^^ cell S 2 c) ^^^ xtime (cell S 0 c ^^^ cell S 2 c)) ^^^ columnSum S c := by
      rw [BitVec.xor_comm (cell S 2 c) (cell S 0 c), columnSum]
      ac_rfl
    _ = columnSum S c := by simp

/-- The square of the matrix has 05 on the diagonal and 04 two rows further; all else cancels. -/
theorem cell_mixColumns_mixColumns (S : Block) (r c : Fin 4) :
    cell (mixColumns (mixColumns S)) r c = xtime (xtime (cell S r c ^^^ cell S (r + 2) c)) ^^^ cell S r c := by
  rw [cell_mixColumns_eq_xtime, cell_mixColumns_xor_next, columnSum_mixColumns, cell_mixColumns_eq_xtime, xtime_xor]
  simp [BitVec.xor_assoc]

/-- `mix_columns` applied twice is its own inverse: it keeps the sum of two cells that are two rows apart, and adds
to each of them the same multiple of that sum. -/
theorem mixColumns_four_times (S : Block) : mixColumns (mixColumns (mixColumns (mixColumns S))) = S := by
  refine block_ext fun r c => ?_
  have sumKept : cell (mixColumns (mixColumns S)) r c ^^^ cell (mixColumns (mixColumns S)) (r + 2) c =
      cell S r c ^^^ cell S (r + 2) c := by
    have back : r + 2 + 2 = r := by rw [add_assoc]; exact add_zero r
    rw [cell_mixColumns_mixColumns, cell_mixColumns_mixColumns, back, BitVec.xor_comm (cell S (r + 2) c) (cell S r c),
      BitVec.xor_comm _ (cell S r c)]
    simp [BitVec.xor_assoc]
  rw [cell_mixColumns_mixColumns, sumKept, cell_mixColumns_mixColumns, xor_cancel_left]

/-- Settles O48: the square of `mix_columns` is an involution. -/
theorem mixColumnsFourTimesIsTheIdentity : Obligations.MixColumnsFourTimesIsTheIdentity := mixColumns_four_times

end Sys2Proof.Machine
end

section
/-!
The commands `LDST`, `RDST`, `SUBB`, `SHROW`, `MIXC`, `ARK` on the port (42_state_ops.md R141, R148 to R152).
-/

namespace Sys2Proof.Machine

open Sys2Proof.Safety

/-! ### The formats `Z` and `P` (30_encoding.md R82, R85) -/

section
variable {c : Command} {s t : State}

/-- A command of format `Z`: an operand that is not 0 is rejected, then a length that is not 0, and the meaning
follows where all are 0. -/
theorem step_of_decodeZ {i : Instr} (format : decode c = decodeZ c i) (meaning : exec i s = .next t) :
    step (issued c s) = .next (
      if aField c.cmd ≠ 0#8 ∨ bField c.cmd ≠ 0#8 then afterReject .eIllegal s
      else if lenField c.cmd ≠ 0#8 then afterReject .eLen s
      else t) := by
  rcases decodeZ_cases c i with ⟨nonzero, e⟩ | ⟨hA, hB, hLen, e⟩ | ⟨hA, hB, hLen, e⟩
  · rw [step_issued_of_decode_error (format.trans e), if_pos nonzero]
  · rw [step_issued_of_decode_error (format.trans e), if_neg (by simp [hA, hB]), if_pos hLen]
  · rw [step_issued_of_decode_ok (format.trans e), if_neg (by simp [hA, hB]), if_neg (not_not.mpr hLen), meaning]

/-- A command of format `P`: an operand that is not 0 is rejected, and the meaning follows where both are 0. -/
theorem step_of_decodeP {i : List Byte → Instr} (format : decode c = decodeP c i) :
    step (issued c s) =
      if aField c.cmd ≠ 0#8 ∨ bField c.cmd ≠ 0#8 then .next (afterReject .eIllegal s) else exec (i c.pl) s := by
  rcases decodeP_cases c i with ⟨nonzero, e⟩ | ⟨hA, hB, e⟩
  · rw [step_issued_of_decode_error (format.trans e), if_pos nonzero]
  · rw [step_issued_of_decode_ok (format.trans e), if_neg (by simp [hA, hB])]

end

/-! ### The guards, by the state they go on with (30_encoding.md R85 steps 5, 7 and 8) -/

section
variable {s t : State} {k : Result}

/-- A guard either rejects or goes on with what it lets pass. -/
theorem guard_eq_next {passes fails : Prop} [Decidable fails] {g : Result} {code : RejectCode}
    (answers : (passes ∧ g = k) ∨ (fails ∧ g = .next (afterReject code s))) (apart : passes → ¬ fails)
    (h : k = .next t) : g = .next (if fails then afterReject code s else t) := by
  rcases answers with ⟨pass, e⟩ | ⟨fail, e⟩
  · rw [e, if_neg (apart pass), h]
  · rw [e, if_pos fail]

theorem requireState_eq_next (h : k = .next t) :
    requireState s k = .next (if s.engine.SV = false then afterReject .eNoState s else t) :=
  guard_eq_next (requireState_cases s k) (by simp) h

theorem requireSchedule_eq_next (h : k = .next t) :
    requireSchedule s k = .next (if s.engine.WV = false then afterReject .eNoSched s else t) :=
  guard_eq_next (requireSchedule_cases s k) (by simp) h

theorem requireRange_eq_next {idx : Byte} (h : k = .next t) :
    requireRange idx s k =
      .next (if idx.toNat > nkWords s.engine.NK + 6 then afterReject .eRange s else t) :=
  guard_eq_next (requireRange_cases idx s k) (by simp) h

end

/-! ### `LDST` (42_state_ops.md R141) -/

/-- The payload has 16 bytes where the length field says so (30_encoding.md R80). -/
theorem payload_length_eq_sixteen {c : Command} : c.pl.length = 16 ↔ lenField c.cmd = 16#8 := by
  rw [command_len, ← BitVec.toNat_inj]
  rfl

/-- `LDST` of another length than 16 is rejected. -/
theorem exec_ldst_of_length_ne {p : List Byte} (length : p.length ≠ 16) (s : State) :
    exec (.ldst p) s = .next (afterReject .eLen s) :=
  if_neg length

/-- Settles O18: format `P`, then the payload's length; the block loaded is that of the payload. -/
theorem ldstFollowsItsRule : Obligations.LdstFollowsItsRule := by
  refine ⟨fun s c op => ?_, fun s p length => ⟨blockOfBytes p, cell_blockOfBytes p, exec_ldst length s⟩⟩
  have read := step_of_decodeP (s := s) (decode_ldst op)
  refine ⟨fun nonzero => by rw [read, if_pos nonzero], fun ⟨hA, hB, hLen⟩ => ?_, fun ⟨hA, hB, hLen⟩ => ?_⟩
  · rw [read, if_neg (by simp [hA, hB]), exec_ldst_of_length_ne (mt payload_length_eq_sixteen.mp hLen)]
  · refine ⟨blockOfBytes c.pl, cell_blockOfBytes c.pl, ?_⟩
    rw [read, if_neg (by simp [hA, hB]), exec_ldst (payload_length_eq_sixteen.mpr hLen), accept_loadBlock]

/-! ### `RDST` (42_state_ops.md R148) -/

/-- Settles O19: format `Z` with the guard on `SV`; the data are the bytes of the block. -/
theorem rdstFollowsItsRule : Obligations.RdstFollowsItsRule := by
  refine ⟨fun s c op => ?_, fun s valid => exec_rdst valid⟩
  refine ⟨bytesOfBlock s.engine.ST, bytesOfBlock_length _, bytesOfBlock_get _, ?_⟩
  exact step_of_decodeZ (decode_rdst op) (requireState_eq_next (accept_eq _ _ s))

/-! ### `SUBB`, `SHROW`, `MIXC` (42_state_ops.md R149 to R151) -/

/-- A command of format `Z` whose meaning is to transform the block by `f`. -/
theorem step_of_transform {c : Command} {i : Instr} {f : Block → Block} {s : State} (format : decode c = decodeZ c i)
    (meaning : exec i s = requireState s (accept 0 [] (setBlock (f s.engine.ST) s))) :
    step (issued c s) = .next (
      if aField c.cmd ≠ 0#8 ∨ bField c.cmd ≠ 0#8 then afterReject .eIllegal s
      else if lenField c.cmd ≠ 0#8 then afterReject .eLen s
      else if s.engine.SV = false then afterReject .eNoState s
      else afterAccept 0 [] { s.engine with ST := f s.engine.ST } s) :=
  step_of_decodeZ format (meaning.trans (requireState_eq_next (accept_setBlock 0 [] _ s)))

/-- Settles O20: the transformation is `sub_bytes`. -/
theorem subbFollowsItsRule : Obligations.SubbFollowsItsRule :=
  ⟨fun _ _ op => step_of_transform (decode_subb op) rfl, fun _ valid => if_pos valid⟩

/-- Settles O21: the transformation is `shift_rows`. -/
theorem shrowFollowsItsRule : Obligations.ShrowFollowsItsRule :=
  ⟨fun _ _ op => step_of_transform (decode_shrow op) rfl, fun _ valid => if_pos valid⟩

/-- Settles O22: the transformation is `mix_columns`. -/
theorem mixcFollowsItsRule : Obligations.MixcFollowsItsRule :=
  ⟨fun _ _ op => step_of_transform (decode_mixc op) rfl, fun _ valid => if_pos valid⟩

/-! ### `ARK` (42_state_ops.md R152) -/

/-- Round key `k` is four consecutive words of the store (10_state.md R26). -/
theorem storedRoundKey_eq (W : Vector Word 60) (k : Nat) :
    storedRoundKey W k =
      #v[schedWord W (4 * k), schedWord W (4 * k + 1), schedWord W (4 * k + 2), schedWord W (4 * k + 3)] := rfl

theorem exec_ark (k : Byte) (s : State) :
    exec (.ark k) s = .next (
      if s.engine.SV = false then afterReject .eNoState s
      else if s.engine.WV = false then afterReject .eNoSched s
      else if k.toNat > nkWords s.engine.NK + 6 then afterReject .eRange s
      else afterAccept 0 []
        { s.engine with ST := addRoundKey s.engine.ST (storedRoundKey s.engine.W k.toNat) } s) :=
  requireState_eq_next (requireSchedule_eq_next (requireRange_eq_next (accept_setBlock 0 [] _ s)))

/-- Settles O23: format `A`, then the guards on `SV`, `WV` and the index. -/
theorem arkFollowsItsRule : Obligations.ArkFollowsItsRule := by
  refine ⟨fun s c op => ?_, fun s k valid scheduled inRange => ?_⟩
  · rw [← storedRoundKey_eq]
    exact step_of_decodeA (decode_ark op) (exec_ark _ s)
  · rw [exec_ark, if_neg (by simp [valid]), if_neg (by simp [scheduled]), if_neg (by omega)]

end Sys2Proof.Machine
end

section
/-!
The key expansion, its round constants, and the commands `LDKEY`, `KEXP`, `RDRK` on the port (43_key_schedule.md R172,
R175, R180 to R182).
-/

namespace Sys2Proof.Machine

open Sys2Proof.Safety

/-! ### The next word, by its branches (43_key_schedule.md R175 step 2) -/

section
variable {Nk i : Nat} {w : List Word}

theorem nextWord_of_mod_eq_zero (divides : i % Nk = 0) :
    nextWord Nk w i = subWord (rotWord (w.getD (i - 1) 0)) ^^^ rconWord (i / Nk - 1) ^^^ w.getD (i - Nk) 0 :=
  if_pos divides

theorem nextWord_of_extra_substitution (between : i % Nk ≠ 0) (extra : Nk = 8 ∧ (i - 4) % 8 = 0) :
    nextWord Nk w i = subWord (w.getD (i - 1) 0) ^^^ w.getD (i - Nk) 0 :=
  (if_neg between).trans (if_pos extra)

theorem nextWord_of_plain (between : i % Nk ≠ 0) (plain : ¬ (Nk = 8 ∧ (i - 4) % 8 = 0)) :
    nextWord Nk w i = w.getD (i - 1) 0 ^^^ w.getD (i - Nk) 0 :=
  (if_neg between).trans (if_neg plain)

/-- Only earlier words are read. -/
theorem nextWord_congr {v : List Word} (pos : 0 < Nk) (afterKey : Nk ≤ i)
    (h : ∀ j < i, v.getD j 0 = w.getD j 0) : nextWord Nk v i = nextWord Nk w i := by
  simp only [nextWord, h (i - 1) (by omega), h (i - Nk) (by omega)]

/-! ### The loop and the expansion (43_key_schedule.md R175) -/

theorem expandLoop_getD_of_lt {n : Nat} (h : i < w.length) : (expandLoop Nk n w).getD i 0 = w.getD i 0 := by
  simp only [List.getD_eq_getElem?_getD, expandLoop_getElem? Nk n w i h]

/-- Every word the loop appends is the next word of the finished list: what it was made from stays in place. -/
theorem expandLoop_getD_eq_nextWord {n : Nat} (pos : 0 < Nk) (afterKey : Nk ≤ w.length) (appended : w.length ≤ i)
    (inLoop : i < w.length + n) : (expandLoop Nk n w).getD i 0 = nextWord Nk (expandLoop Nk n w) i := by
  induction n generalizing w with
  | zero => omega
  | succ n ih =>
    have grown : (w ++ [nextWord Nk w w.length]).length = w.length + 1 := by simp
    rcases appended.eq_or_lt with rfl | later
    · have kept : ∀ j < w.length, w.getD j 0 = (expandLoop Nk (n + 1) w).getD j 0 :=
        fun j earlier => (expandLoop_getD_of_lt earlier).symm
      calc (expandLoop Nk (n + 1) w).getD w.length 0
          = (w ++ [nextWord Nk w w.length]).getD w.length 0 := by
            rw [expandLoop, expandLoop_getD_of_lt (by omega)]
        _ = nextWord Nk w w.length := by simp
        _ = nextWord Nk (expandLoop Nk (n + 1) w) w.length := nextWord_congr pos afterKey kept
    · exact ih (w := w ++ [nextWord Nk w w.length]) (by omega) (by omega) (by omega)

/-- The first words of the schedule are those of the key. -/
theorem keyExpansion_getD_of_lt (KW : Vector Word 8) (inKey : i < Nk) (inStore : i < 8) :
    (keyExpansion KW Nk).getD i 0 = KW[i] := by
  rw [keyExpansion, expandLoop_getD_of_lt (by simp; omega)]
  simp [inKey, inStore]

/-- Every later word is the next word of the schedule. -/
theorem keyExpansion_getD_eq_nextWord (KW : Vector Word 8) (pos : 0 < Nk) (fits : Nk ≤ 8) (afterKey : Nk ≤ i)
    (inSchedule : i < scheduleLength Nk) : (keyExpansion KW Nk).getD i 0 = nextWord Nk (keyExpansion KW Nk) i := by
  have length : (KW.toList.take Nk).length = Nk := by simpa using fits
  exact expandLoop_getD_eq_nextWord pos (by omega) (by omega) (by omega)

end

/-- The key sizes are numbers of words of key lengths (10_state.md R24). -/
theorem exists_nkWords_eq {Nk : Nat} (size : Nk ∈ [4, 6, 8]) : ∃ nk, nkWords nk = Nk := by
  have : Nk = 4 ∨ Nk = 6 ∨ Nk = 8 := by simpa using size
  rcases this with rfl | rfl | rfl
  · exact ⟨.nk4, rfl⟩
  · exact ⟨.nk6, rfl⟩
  · exact ⟨.nk8, rfl⟩

/-- Settles O51: the finished schedule meets the loop's own recursion, read off branch by branch. -/
theorem keyExpansionRecursion : Obligations.KeyExpansionRecursion := by
  intro KW Nk size w
  obtain ⟨nk, rfl⟩ := exists_nkWords_eq size
  have pos : 0 < nkWords nk := Nat.pos_of_ne_zero fun zero => by simp [zero] at size
  refine ⟨keyExpansion_length KW nk, fun i inKey => keyExpansion_getD_of_lt KW inKey i.isLt,
    fun i afterKey inSchedule => ?_⟩
  have next : w i = nextWord (nkWords nk) (keyExpansion KW (nkWords nk)) i :=
    keyExpansion_getD_eq_nextWord KW pos (nkWords_le nk) afterKey inSchedule
  exact ⟨fun divides => next.trans (nextWord_of_mod_eq_zero divides),
    fun ⟨between, extra⟩ => next.trans (nextWord_of_extra_substitution between extra),
    fun ⟨between, plain⟩ => next.trans (nextWord_of_plain between plain)⟩

/-! ### The round constants (43_key_schedule.md R172) -/

theorem byteAt_rcon_succ : ∀ k : Fin 9, byteAt rcon (k.val + 1) = xtime (byteAt rcon k.val) := by decide

/-- A byte in the most significant place. -/
theorem wordOfBytes_zeros (b : Byte) : wordOfBytes b 0 0 0 = b.setWidth 32 <<< 24 := by
  apply BitVec.eq_of_toNat_eq
  have := b.isLt
  simp [wordOfBytes_toNat, Nat.shiftLeft_eq]
  omega

/-- Settles O50: multiplication by 0x02 is `xtime`, and each entry is `xtime` of the one before. -/
theorem roundConstantsArePowersOfTwo : Obligations.RoundConstantsArePowersOfTwo :=
  ⟨rfl, rfl, fun k => (byteAt_rcon_succ k).trans (gfMul_two_left _).symm, fun _ => wordOfBytes_zeros _⟩

/-! ### `LDKEY` (43_key_schedule.md R180) -/

/-- A command of format `AP` with `B` = 0: the step is the meaning, which checks the other operands. -/
theorem step_of_decodeAP {c : Command} {i : Byte → List Byte → Instr} (format : decode c = decodeAP c i)
    (hB : bField c.cmd = 0#8) (s : State) : step (issued c s) = exec (i (aField c.cmd) c.pl) s := by
  rcases decodeAP_cases c i with ⟨nonzero, -⟩ | ⟨-, e⟩
  · exact absurd hB nonzero
  · exact step_issued_of_decode_ok (format.trans e) s

/-- A loaded key, accepted: the words of the key are those of the payload. -/
theorem keyLoaded_accept_loadKey (n : KeyLen) (q : List Byte) (s : State) :
    keyLoaded (nkWords n) q s (afterAccept 0 [] (loadKey n q s).engine (loadKey n q s)) :=
  ⟨fun j inKey => loadKey_KW_of_lt n q s j.val j.isLt inKey, rfl, rfl, rfl, rfl, rfl, rfl, rfl, rfl⟩

theorem exec_ldkey_loads {nk : Byte} {q : List Byte} (size : nk.toNat ∈ [4, 6, 8]) (length : q.length = 4 * nk.toNat)
    (s : State) : ∃ t, exec (.ldkey nk q) s = .next t ∧ keyLoaded nk.toNat q s t := by
  obtain ⟨n, named, words⟩ := keyLenOf_of_mem size
  rw [← words] at length ⊢
  exact ⟨_, exec_ldkey named length s, keyLoaded_accept_loadKey n q s⟩

/-- `LDKEY` with a payload of another length than its key length says is rejected. -/
theorem exec_ldkey_of_length_ne {nk : Byte} {q : List Byte} (size : nk.toNat ∈ [4, 6, 8])
    (length : q.length ≠ 4 * nk.toNat) (s : State) : exec (.ldkey nk q) s = .next (afterReject .eKeyLen s) := by
  obtain ⟨n, named, words⟩ := keyLenOf_of_mem size
  simp [exec, execLdkey, named, words, length, reject_eq]

/-- Settles O24: the illegal words are those of 30_encoding.md R86; the other words are decided by their meaning. -/
theorem ldkeyFollowsItsRule : Obligations.LdkeyFollowsItsRule := by
  refine ⟨fun s c op => ⟨fun illegal => ?_, fun ⟨hB, size, length⟩ => ?_, fun ⟨hB, size, length⟩ => ?_⟩,
    fun s nk q size length => exec_ldkey_loads size length s⟩
  · refine (illegalWordsAreRejectedWithEIllegal s c).1 (.inr (.inr ?_))
    exact illegal.imp (fun hB => ⟨by rw [op]; decide, hB⟩) fun size => ⟨op, size⟩
  · rw [step_of_decodeAP (decode_ldkey op) hB, exec_ldkey_of_length_ne size (by rwa [command_len])]
  · rw [step_of_decodeAP (decode_ldkey op) hB]
    exact exec_ldkey_loads size (by rwa [command_len]) s

/-! ### `KEXP` (43_key_schedule.md R181) -/

theorem requireKey_eq_next {s t : State} {k : Result} (h : k = .next t) :
    requireKey s k = .next (if s.engine.KV = false then afterReject .eNoKey s else t) :=
  guard_eq_next (requireKey_cases s k) (by simp) h

/-- The engine and the port after an accepted `KEXP`. -/
def afterKexp (s : State) : State :=
  respond ⟨.ok, 0, []⟩ (setErr .ok (storeSchedule (keyExpansion s.engine.KW (nkWords s.engine.NK)) s))

theorem exec_kexp (s : State) :
    exec .kexp s = .next (if s.engine.KV = false then afterReject .eNoKey s else afterKexp s) :=
  requireKey_eq_next rfl

/-- The stored words are those of the expansion, as far as it goes. -/
theorem scheduleStored_afterKexp (s : State) : scheduleStored s (afterKexp s) := by
  refine ⟨fun i hi => ?_, rfl, rfl, rfl, rfl, rfl, rfl, rfl, rfl, rfl⟩
  have inSchedule : i.val < (keyExpansion s.engine.KW (nkWords s.engine.NK)).length := by
    rwa [keyExpansion_length]
  rw [List.getElem?_eq_getElem inSchedule, ← storeSchedule_W_of_lt _ s i.val i.isLt inSchedule]
  rfl

/-- Settles O25: format `Z` with the guard on `KV`. -/
theorem kexpFollowsItsRule : Obligations.KexpFollowsItsRule := by
  refine ⟨fun s c op => ?_, fun s keyed => ⟨_, by rw [exec_kexp, keyed]; rfl, scheduleStored_afterKexp s⟩⟩
  have read := step_of_decodeZ (decode_kexp op) (exec_kexp s)
  refine ⟨fun nonzero => ?_, fun ⟨hA, hB, hLen⟩ => ?_, fun ⟨hA, hB, hLen, keyless⟩ => ?_,
    fun ⟨hA, hB, hLen, keyed⟩ => ⟨afterKexp s, ?_, scheduleStored_afterKexp s⟩⟩
  · rw [read, if_pos nonzero]
  · simp [read, hA, hB, hLen]
  · simp [read, hA, hB, hLen, keyless]
  · simp [read, hA, hB, hLen, keyed]

/-! ### `RDRK` (43_key_schedule.md R182) -/

theorem exec_rdrk (k : Byte) (s : State) :
    exec (.rdrk k) s = .next (
      if s.engine.WV = false then afterReject .eNoSched s
      else if k.toNat > nkWords s.engine.NK + 6 then afterReject .eRange s
      else afterAccept 0 (bytesOfRoundKey (storedRoundKey s.engine.W k.toNat)) s.engine s) :=
  requireSchedule_eq_next (requireRange_eq_next (accept_eq _ _ s))

/-- Settles O26: format `A`, then the guards on `WV` and the index; the data are the bytes of the stored round key. -/
theorem rdrkFollowsItsRule : Obligations.RdrkFollowsItsRule := by
  refine ⟨fun s c op => ⟨bytesOfRoundKey (storedRoundKey s.engine.W (aField c.cmd).toNat), bytesOfRoundKey_length _,
    fun k j => ?_, step_of_decodeA (decode_rdrk op) (exec_rdrk _ s)⟩, fun s k scheduled inRange => ?_⟩
  · rw [bytesOfRoundKey_get, storedRoundKey_get _ _ _ k.isLt]
  · rw [exec_rdrk, if_neg (by simp [scheduled]), if_neg (by omega)]

end Sys2Proof.Machine
end

section
/-!
Block encryption: its elementary operations, its sequencer, its dependence on block and key, and the command `ENC` on
the port (44_block_encrypt.md R202 to R207).
-/

namespace Sys2Proof.Machine

open Sys2Proof.Safety

/-! ### Encryption as a list of elementary operations (44_block_encrypt.md R204) -/

section
variable (w : List Word)

theorem foldl_applyOp_roundOps (n : Nat) (S : Block) :
    (roundOps n).foldl (applyOp w) S = roundFn S (roundKeyOf w n) := rfl

theorem foldl_applyOp_fullRounds (count n : Nat) (S : Block) :
    ((List.range' n count).flatMap roundOps).foldl (applyOp w) S = fullRounds w count n S := by
  induction count generalizing n S with
  | zero => rfl
  | succ count ih =>
    rw [List.range'_succ, List.flatMap_cons, List.foldl_append, foldl_applyOp_roundOps, ih, fullRounds]

end

theorem encrypt_eq_foldl (S : Block) (KW : Vector Word 8) (Nk : Nat) :
    encrypt S KW Nk = (encOps (Nk + 6)).foldl (applyOp (keyExpansion KW Nk)) S := by
  rw [encOps, List.foldl_append, List.foldl_append, foldl_applyOp_fullRounds]
  rfl

/-- An operation that stands once in each full round: how often it stands before, in and after the full rounds. -/
theorem count_encOps {o : RoundOp} (Nr : Nat) (perRound : ∀ n, (roundOps n).count o = 1) :
    (encOps Nr).count o = [RoundOp.addRoundKey 0].count o + (Nr - 1) +
      [RoundOp.subBytes, .shiftRows, .addRoundKey Nr].count o := by
  have once : List.count o ∘ roundOps = fun _ => 1 := funext perRound
  rw [encOps, List.count_append, List.count_append, List.count_flatMap, once]
  simp

/-- The index of the round key that an operation adds. -/
def roundKeyIndex : RoundOp → Option Nat
  | .addRoundKey k => some k
  | .subBytes | .shiftRows | .mixColumns => none

/-- Each full round adds the round key of its own number. -/
theorem filterMap_roundKeyIndex_rounds (l : List Nat) : (l.flatMap roundOps).filterMap roundKeyIndex = l := by
  induction l with
  | nil => rfl
  | cons n l ih => rw [List.flatMap_cons, List.filterMap_append, ih]; rfl

/-- The round keys of an encryption: 0 to `Nr`, each once, in order. -/
theorem filterMap_roundKeyIndex_encOps {Nr : Nat} (rounds : 1 ≤ Nr) :
    (encOps Nr).filterMap roundKeyIndex = List.range (Nr + 1) := by
  obtain ⟨n, rfl⟩ : ∃ n, Nr = n + 1 := ⟨Nr - 1, by omega⟩
  rw [encOps, List.filterMap_append, List.filterMap_append, filterMap_roundKeyIndex_rounds, List.range_succ,
    List.range_eq_range', List.range'_succ]
  rfl

/-- Settles O54: the fold round by round, and the operations counted round by round. -/
theorem operationCountsOfAnEncryption : Obligations.OperationCountsOfAnEncryption := by
  refine fun Nk _ => ⟨fun S KW => encrypt_eq_foldl S KW Nk, ?_, ?_, ?_, ?_⟩
  · exact (count_encOps (o := .subBytes) (Nk + 6) fun _ => rfl).trans (by simp)
  · exact (count_encOps (o := .shiftRows) (Nk + 6) fun _ => rfl).trans (by simp)
  · exact (count_encOps (o := .mixColumns) (Nk + 6) fun _ => rfl).trans (by simp)
  · refine Eq.trans (List.filterMap_congr fun o _ => ?_) (filterMap_roundKeyIndex_encOps (Nat.succ_pos _))
    cases o <;> rfl

/-! ### The sequencer (44_block_encrypt.md R203) -/

section
variable (w : List Word) (Nr : Nat)

theorem seqRun_add (m n : Nat) (q : Sequencer) : seqRun w Nr (m + n) q = seqRun w Nr n (seqRun w Nr m q) := by
  induction m generalizing q with
  | zero => rw [Nat.zero_add, seqRun]
  | succ m ih => rw [Nat.succ_add, seqRun, ih, seqRun]

/-- Transition T3, `j` times. -/
theorem seqRun_rounds (j n : Nat) (S : Block) (below : n + j < Nr) :
    seqRun w Nr j ⟨.rounds, n, S⟩ = ⟨.rounds, j + n, fullRounds w j (n + 1) S⟩ := by
  induction j generalizing n S with
  | zero => simp [seqRun, fullRounds]
  | succ j ih =>
    have again : n < Nr - 1 := by omega
    simp only [seqRun, seqStep, if_pos again]
    rw [ih (n + 1) _ (by omega), fullRounds, Nat.add_right_comm j 1 n]
    rfl

/-- T1, T2 and `j` times T3: `j + 1` full rounds are done. -/
theorem seqRun_two_add (j : Nat) (S : Block) (below : j + 1 < Nr) :
    seqRun w Nr (2 + j) (seqStart S) =
      ⟨.rounds, j + 1, fullRounds w (j + 1) 1 (addRoundKey S (roundKeyOf w 0))⟩ := by
  rw [seqRun_add]
  exact seqRun_rounds w Nr j 1 _ (by omega)

/-- T4 ends the full rounds. -/
theorem seqStep_of_last_round (S : Block) :
    seqStep w Nr ⟨.rounds, Nr - 1, S⟩ = ⟨.finalRound, Nr, finalRoundFn S (roundKeyOf w Nr)⟩ :=
  if_neg (lt_irrefl _)

end

/-- T1 to T4: the final round is done. -/
theorem seqRun_finalRound (S : Block) (KW : Vector Word 8) (Nk : Nat) :
    seqRun (keyExpansion KW Nk) (Nk + 6) (Nk + 6 + 1) (seqStart S) = ⟨.finalRound, Nk + 6, encrypt S KW Nk⟩ := by
  rw [show Nk + 6 + 1 = 2 + (Nk + 4) + 1 by omega, seqRun_add, seqRun_two_add _ _ _ _ (by omega)]
  exact seqStep_of_last_round (keyExpansion KW Nk) (Nk + 6) _

/-- Settles O53: T3 by induction, the other transitions one by one. -/
theorem sequencerComputesEncrypt : Obligations.SequencerComputesEncrypt := by
  intro S KW Nk _ w Nr
  refine ⟨rfl, fun j atMost => ?_, ?_, ?_⟩
  · rw [seqRun_two_add w Nr j S (by omega)]
    exact ⟨rfl, rfl⟩
  · rw [seqRun_finalRound]
  · rw [seqRun_add w Nr (Nr + 1) 1, seqRun_finalRound]
    rfl

/-! ### Encryption permutes the blocks (44_block_encrypt.md R207) -/

theorem subBytes_bijective : Function.Bijective subBytes := by
  obtain ⟨inv, left, right⟩ := Function.bijective_iff_has_inverse.mp subByte_bijective
  refine Function.bijective_iff_has_inverse.mpr ⟨fun S => mkBlock fun r c => inv (cell S r c), fun S => ?_, fun S => ?_⟩
  · exact block_ext fun r c => by simp [left (cell S r c)]
  · exact block_ext fun r c => by simp [right (cell S r c)]

/-- A map whose fourth power is the identity is undone by its third power. -/
theorem bijective_of_four_times {α : Type} {f : α → α} (h : ∀ x, f (f (f (f x))) = x) : Function.Bijective f :=
  Function.bijective_iff_has_inverse.mpr ⟨fun x => f (f (f x)), h, h⟩

theorem applyOp_bijective (w : List Word) (o : RoundOp) : Function.Bijective (applyOp w · o) := by
  cases o with
  | subBytes => exact subBytes_bijective
  | shiftRows => exact bijective_of_four_times shiftRows_four_times
  | mixColumns => exact bijective_of_four_times mixColumns_four_times
  | addRoundKey k =>
    have involutive : Function.Involutive (addRoundKey · (roundKeyOf w k)) := fun S => addRoundKey_addRoundKey S _
    exact involutive.bijective

theorem foldl_applyOp_bijective (w : List Word) (ops : List RoundOp) : Function.Bijective (ops.foldl (applyOp w)) := by
  induction ops with
  | nil => exact Function.bijective_id
  | cons o ops ih => exact ih.comp (applyOp_bijective w o)

/-- Settles O57: the schedule reads the key words only, and every elementary operation is a bijection. -/
theorem encryptIsABijectionOfTheBlock : Obligations.EncryptIsABijectionOfTheBlock := by
  refine fun Nk _ => ⟨fun S K L agree => encrypt_congr S agree, fun K => ?_⟩
  simp only [encrypt_eq_foldl]
  exact foldl_applyOp_bijective _ _

/-! ### The known answers (44_block_encrypt.md R202) -/

/-- Settles O52, computed key size by key size. -/
theorem knownAnswers : Obligations.KnownAnswers :=
  ⟨by decide +kernel, by decide +kernel, by decide +kernel⟩

/-! ### `ENC` (44_block_encrypt.md R205) -/

/-- The engine and the port after an accepted `ENC`. -/
def afterEnc (s : State) : State :=
  respond ⟨.ok, 0, []⟩ (setErr .ok (discardSchedule
    (setBlock (encrypt s.engine.ST s.engine.KW (nkWords s.engine.NK)) s)))

/-- `ENC` in every state: the guards on `SV` and `KV`, in this order. -/
theorem exec_enc_eq (s : State) :
    exec .enc s = .next (
      if s.engine.SV = false then afterReject .eNoState s
      else if s.engine.KV = false then afterReject .eNoKey s
      else afterEnc s) :=
  requireState_eq_next (requireKey_eq_next rfl)

theorem blockEncrypted_afterEnc (s : State) : blockEncrypted s (afterEnc s) :=
  ⟨rfl, rfl, rfl, rfl, rfl, rfl, rfl, rfl, rfl⟩

/-- Settles O27: format `Z` with the guards on `SV` and `KV`. -/
theorem encFollowsItsRule : Obligations.EncFollowsItsRule := by
  refine ⟨fun s c op => ?_, fun s valid keyed => ⟨afterEnc s, exec_enc valid keyed, blockEncrypted_afterEnc s⟩⟩
  have read := step_of_decodeZ (decode_enc op) (exec_enc_eq s)
  refine ⟨fun nonzero => ?_, fun ⟨hA, hB, hLen⟩ => ?_, fun ⟨hA, hB, hLen, empty⟩ => ?_,
    fun ⟨hA, hB, hLen, valid, keyless⟩ => ?_,
    fun ⟨hA, hB, hLen, valid, keyed⟩ => ⟨afterEnc s, ?_, blockEncrypted_afterEnc s⟩⟩
  · rw [read, if_pos nonzero]
  · simp [read, hA, hB, hLen]
  · simp [read, hA, hB, hLen, empty]
  · simp [read, hA, hB, hLen, valid, keyless]
  · simp [read, hA, hB, hLen, valid, keyed]

end Sys2Proof.Machine
end

section
/-!
One `ENC` equals the elementary commands in sequence (44_block_encrypt.md R206).
-/

namespace Sys2Proof.Machine

open Sys2Proof.Safety

/-! ### The command of each elementary operation -/

/-- The command that applies an elementary operation to `ST`. -/
def commandOf : RoundOp → Instr
  | .subBytes => .subb
  | .shiftRows => .shrow
  | .mixColumns => .mixc
  | .addRoundKey k => .ark (BitVec.ofNat 8 k)

theorem commandOf_wf (o : RoundOp) : (commandOf o).wf = true := by cases o <;> rfl

/-- After `KEXP`, the command sequence is that of the operations of one encryption. -/
theorem elementaryCommands_eq (Nr : Nat) : elementaryCommands Nr = .kexp :: (encOps Nr).map commandOf := by
  simp [elementaryCommands, encOps, List.map_flatMap, roundOps, commandOf]

theorem length_encOps (Nr : Nat) : (encOps Nr).length = 4 * (Nr - 1) + 4 := by
  simp [encOps, roundOps, List.length_flatMap, Nat.mul_comm]

/-- An encryption adds no round key above `Nr`. -/
theorem le_of_addRoundKey_mem_encOps {Nr k : Nat} (rounds : 1 ≤ Nr) (mem : .addRoundKey k ∈ encOps Nr) : k ≤ Nr := by
  have index : k ∈ (encOps Nr).filterMap roundKeyIndex := List.mem_filterMap.mpr ⟨_, mem, rfl⟩
  rw [filterMap_roundKeyIndex_encOps rounds, List.mem_range] at index
  omega

/-! ### The run of the elementary commands -/

/-- The state `s` with the block `S`, the commands of `ops` on the port and `n` further accepted responses: a stage of
the sequence of elementary commands. -/
def stage (s : State) (S : Block) (ops : List RoundOp) (n : Nat) : State :=
  { s with
    engine := { s.engine with ST := S, ERR := .ok }
    input := commands (ops.map commandOf)
    responses := List.replicate n ⟨.ok, 0, []⟩ ++ s.responses }

/-- `s` holds a block, and `W` the schedule `w` of its key. -/
structure HoldsSchedule (w : List Word) (s : State) : Prop where
  valid : s.engine.SV = true
  scheduled : s.engine.WV = true
  stored : ∀ k, k ≤ nkWords s.engine.NK + 6 → storedRoundKey s.engine.W k = roundKeyOf w k

theorem storedRoundKey_storeSchedule (s : State) {k : Nat} (inRange : k ≤ nkWords s.engine.NK + 6) :
    storedRoundKey (storeSchedule (keyExpansion s.engine.KW (nkWords s.engine.NK)) s).engine.W k =
      roundKeyOf (keyExpansion s.engine.KW (nkWords s.engine.NK)) k := by
  refine Vector.ext fun c hc => ?_
  have inSchedule : 4 * k + c < scheduleLength (nkWords s.engine.NK) := by simp only [scheduleLength]; omega
  have inStore : 4 * k + c < 60 := inSchedule.trans_le (scheduleLength_le _)
  simp [inStore, inSchedule, storeSchedule_W_of_lt]

theorem holdsSchedule_storeSchedule {s : State} (valid : s.engine.SV = true) :
    HoldsSchedule (keyExpansion s.engine.KW (nkWords s.engine.NK))
      (storeSchedule (keyExpansion s.engine.KW (nkWords s.engine.NK)) s) :=
  ⟨valid, rfl, fun _ inRange => storedRoundKey_storeSchedule s inRange⟩

section
variable {w : List Word} {s : State} (holds : HoldsSchedule w s)
include holds

/-- Each command is accepted and applies its operation. -/
theorem exec_commandOf {o : RoundOp} (inRange : ∀ k, o = .addRoundKey k → k ≤ nkWords s.engine.NK + 6)
    (S : Block) (ops : List RoundOp) (n : Nat) :
    exec (commandOf o) (stage s S ops n) = .next (stage s (applyOp w S o) ops (n + 1)) := by
  cases o with
  | subBytes | shiftRows | mixColumns => exact if_pos holds.valid
  | addRoundKey k =>
    have fits : k ≤ nkWords s.engine.NK + 6 := inRange k rfl
    have index : (BitVec.ofNat 8 k).toNat = k := by
      have := nkWords_le s.engine.NK
      rw [BitVec.toNat_ofNat, Nat.mod_eq_of_lt (by omega)]
    rw [applyOp, ← holds.stored k fits]
    have accepted := arkFollowsItsRule.2 (stage s S ops n) (BitVec.ofNat 8 k) holds.valid holds.scheduled
      (by rwa [index])
    rw [index] at accepted
    exact accepted

/-- The commands of a list of operations apply it in order. -/
theorem run_commandOf {ops : List RoundOp}
    (inRange : ∀ k, .addRoundKey k ∈ ops → k ≤ nkWords s.engine.NK + 6) (S : Block) (n : Nat) :
    Host.Core.run core ops.length (stage s S ops n) =
      .next (stage s (ops.foldl (applyOp w) S) [] (ops.length + n)) := by
  induction ops generalizing S n with
  | nil => rw [List.length_nil, Nat.zero_add]; rfl
  | cons o ops ih =>
    have first : ∀ k, o = .addRoundKey k → k ≤ nkWords s.engine.NK + 6 :=
      fun k e => inRange k (e ▸ List.mem_cons_self)
    have others : ∀ k, .addRoundKey k ∈ ops → k ≤ nkWords s.engine.NK + 6 :=
      fun k mem => inRange k (List.mem_cons_of_mem o mem)
    rw [List.length_cons, run_commands_cons _ (commandOf_wf o) (exec_commandOf holds first S ops n) rfl,
      ih others, List.foldl_cons, Nat.add_right_comm, Nat.add_assoc]

end

/-! ### The sequence and `ENC` -/

/-- `KEXP` is accepted and stores the schedule; the commands of the operations follow. -/
theorem exec_kexp_stage {s : State} (keyed : s.engine.KV = true) (ops : List RoundOp) :
    exec .kexp { s with input := commands (ops.map commandOf) } =
      .next (stage (storeSchedule (keyExpansion s.engine.KW (nkWords s.engine.NK)) s) s.engine.ST ops 1) :=
  if_pos keyed

/-- The elementary commands leave the encrypted block, with one accepted response each. -/
theorem run_elementaryCommands {s : State} (valid : s.engine.SV = true) (keyed : s.engine.KV = true) :
    Host.Core.run core ((encOps (nkWords s.engine.NK + 6)).length + 1)
        { s with input := commands (elementaryCommands (nkWords s.engine.NK + 6)) } =
      .next (stage (storeSchedule (keyExpansion s.engine.KW (nkWords s.engine.NK)) s)
        (encrypt s.engine.ST s.engine.KW (nkWords s.engine.NK)) []
        ((encOps (nkWords s.engine.NK + 6)).length + 1)) := by
  rw [elementaryCommands_eq, encrypt_eq_foldl]
  exact Eq.trans (run_commands_cons _ rfl (exec_kexp_stage keyed _) rfl) <|
    run_commandOf (holdsSchedule_storeSchedule valid) (fun _ => le_of_addRoundKey_mem_encOps (by omega)) _ _

/-- One `ENC` on the port, where it is accepted. -/
theorem step_enc {s : State} (valid : s.engine.SV = true) (keyed : s.engine.KV = true) :
    step { s with input := commands [.enc] } = .next (afterEnc { s with input := [] }) :=
  (step_issued_of_decode_ok (decodeOfEncodeGivesTheCommand .enc rfl) { s with input := [] }).trans
    (exec_enc valid keyed)

/-- Settles O55: both sides leave `Encrypt` of the block. `SV` = `KV` = 1 is enough for every command to be accepted,
since `KEXP` provides what `ARK` asks for; the invariants are not used. -/
theorem encEqualsTheElementaryCommands : Obligations.EncEqualsTheElementaryCommands := by
  intro s _ valid keyed Nr
  have count : 1 + 1 + 4 * (Nr - 1) + 3 = (encOps Nr).length + 1 := by rw [length_encOps]; omega
  rw [count]
  refine ⟨by simp [elementaryCommands_eq], _, _, run_elementaryCommands valid keyed, step_enc valid keyed,
    rfl, rfl, rfl, rfl, rfl, rfl, rfl, rfl, rfl, rfl⟩

end Sys2Proof.Machine
end

section
/-!
The command `RDSTAT` on the port (45_system.md R220).
-/

namespace Sys2Proof.Machine

open Sys2Proof.Safety

/-- `RDSTAT` is accepted in every state, and only the response is added. -/
theorem exec_rdstat (s : State) :
    exec .rdstat s =
      .next { s with responses := { rc := .ok, val := status s.engine, data := [] } :: s.responses } :=
  acceptQuiet_eq (status s.engine) s

/-- Settles O28: format `Z` with the meaning of `RDSTAT`, the one accepted command that leaves `ERR`. -/
theorem rdstatFollowsItsRule : Obligations.RdstatFollowsItsRule :=
  ⟨fun s _ op => step_of_decodeZ (decode_rdstat op) (exec_rdstat s), exec_rdstat⟩

end Sys2Proof.Machine
end

section
/-!
Rejection, the engine's only exception (60_exceptions.md): what it writes (R231, R232), and which of several causes
it reports (R233).
-/

namespace Sys2Proof.Machine

open Sys2Proof.Safety

/-- Settles O11: the procedure's rejection is the whole next state. -/
theorem rejectionWritesOnlyErr : Obligations.RejectionWritesOnlyErr := by
  intro s c failed
  obtain ⟨t, e, rejected, -⟩ := step_concludes s c
  rw [e, rejected failed, afterReject]

/-! ### The lowest code among several causes (60_exceptions.md R233) -/

/-- The number of a reject code, by which R233 compares them. -/
abbrev codeNumber (code : RejectCode) : Nat := (rcBits code).toNat

theorem ofNat_codeNumber : Function.LeftInverse RejectCode.ofNat codeNumber := by
  intro code
  cases code <;> rfl

section
variable {c : Command} {e : EngineState} {code : RejectCode}

/-- Among the causes with the number `n` or a higher one, `code` is the lowest that applies; where none does, it is
`OK`. -/
def LowestFrom (c : Command) (e : EngineState) (n : Nat) (code : RejectCode) : Prop :=
  (code ≠ .ok → causeApplies code c e) ∧
  ∀ k, causeApplies k c e → n ≤ codeNumber k → code ≠ .ok ∧ codeNumber code ≤ codeNumber k

/-- No cause stands above `E_RANGE`. -/
theorem lowestFrom_ok : LowestFrom c e 8 .ok :=
  ⟨fun failed => absurd rfl failed, fun k _ above => absurd (above.trans (rcBits_le k)) (by decide)⟩

/-- A check of the cause `own` in front of those with higher numbers. -/
theorem lowestFrom_check {p : Prop} [Decidable p] {own : RejectCode} (failed : own ≠ .ok)
    (cause : causeApplies own c e ↔ p) (higher : ¬ p → LowestFrom c e (codeNumber own + 1) code) :
    LowestFrom c e (codeNumber own) (if p then own else code) := by
  by_cases hp : p
  · rw [if_pos hp]
    exact ⟨fun _ => cause.mpr hp, fun _ _ above => ⟨failed, above⟩⟩
  · rw [if_neg hp]
    obtain ⟨applies, lowest⟩ := higher hp
    refine ⟨applies, fun k hk above => lowest k hk (lt_of_le_of_ne above fun same => hp (cause.mp ?_))⟩
    rwa [ofNat_codeNumber.injective same]

/-- Step 4 of the procedure need not ask for an opcode, which a legal word has. -/
theorem causeApplies_eLen_iff (legal : ¬ illegalWord c.cmd) :
    causeApplies .eLen c e ↔
      (opField c.cmd = 0x30#8 ∧ (lenField c.cmd).toNat ≠ 16) ∨
        (opField c.cmd ≠ 0x30#8 ∧ opField c.cmd ≠ 0x40#8 ∧ (lenField c.cmd).toNat ≠ 0) := by
  have known : opField c.cmd ∈ opcodes := by_contra fun unknown => legal (.inl unknown)
  simp [causeApplies, known, BitVec.toNat_eq]

/-- The procedure of 30_encoding.md R85 checks the causes in the order of their numbers. -/
theorem procedureCode_lowestFrom (c : Command) (e : EngineState) : LowestFrom c e 1 (procedureCode c e) :=
  lowestFrom_check (own := .eIllegal) (by decide) Iff.rfl fun legal =>
  lowestFrom_check (own := .eKeyLen) (by decide) Iff.rfl fun _ =>
  lowestFrom_check (own := .eLen) (by decide) (causeApplies_eLen_iff legal) fun _ =>
  lowestFrom_check (own := .eNoState) (by decide) Iff.rfl fun _ =>
  lowestFrom_check (own := .eNoKey) (by decide) Iff.rfl fun _ =>
  lowestFrom_check (own := .eNoSched) (by decide) Iff.rfl fun _ =>
  lowestFrom_check (own := .eRange) (by decide) Iff.rfl fun _ => lowestFrom_ok

/-- `OK` is no cause, so every cause has a number from 1. -/
theorem one_le_codeNumber_of_causeApplies (applies : causeApplies code c e) : 1 ≤ codeNumber code := by
  cases code with
  | ok => exact applies.elim
  | _ => decide

end

/-- Settles O10: the response carries the procedure's code, which is the lowest of the causes. -/
theorem lowestApplicableCodeWins : Obligations.LowestApplicableCodeWins := by
  intro s c
  obtain ⟨r, t, e, responded, code⟩ := stepFollowsTheDecodingProcedure s c
  obtain ⟨applies, lowest⟩ := procedureCode_lowestFrom c s.engine
  rw [← code] at applies lowest
  have bound : ∀ k, causeApplies k c s.engine → r.rc ≠ .ok ∧ codeNumber r.rc ≤ codeNumber k :=
    fun k cause => lowest k cause (one_le_codeNumber_of_causeApplies cause)
  refine ⟨r, t, e, responded, ⟨fun ok k cause => (bound k cause).1 ok, fun noCause => ?_⟩, applies,
    fun k cause => (bound k cause).2⟩
  exact by_contra fun failed => noCause r.rc (applies failed)

end Sys2Proof.Machine
end

section
/-!
Termination of every command (70_reset_and_hazards.md R272), how long the key lasts (R267), and the reset event (R261).
-/

namespace Sys2Proof.Machine

open Sys2Proof.Safety

/-! ### Every command ends with its response (70_reset_and_hazards.md R272) -/

/-- A command on the port: one next state, with one new response and the same queue behind the command. -/
theorem step_answers (s : State) (c : Command) :
    ∃ r t, step (issued c s) = .next t ∧ t.input = s.input ∧ t.responses = r :: s.responses := by
  cases d : decode c with
  | error code => exact ⟨_, _, step_issued_of_decode_error d s, rfl, rfl⟩
  | ok i =>
    obtain ⟨r, t, e, queue, responded, -⟩ := commandsTouchOnlyTheirState i s
    exact ⟨r, t, (step_issued_of_decode_ok d s).trans e, queue, responded⟩

theorem step_next (s : State) : ∃ t, step s = .next t := by
  rcases step_cases s with ⟨-, e⟩ | ⟨rest, -, e⟩ | ⟨c, s', rfl, -⟩
  · exact ⟨_, e⟩
  · exact ⟨_, e⟩
  · obtain ⟨_, t, e, -⟩ := step_answers s' c
    exact ⟨t, e⟩

/-- Settles O12: idle and reset answer a next state, and so does a command on the port, with its response. -/
theorem everyCommandTerminatesAndResponds : Obligations.EveryCommandTerminatesAndResponds := ⟨step_next, step_answers⟩

/-! ### The key (70_reset_and_hazards.md R267) -/

/-- `t` holds the key of `s`, or like `s` holds none: `KW`, `NK` and `KV` are the same. -/
def KeepsKey (s t : State) : Prop :=
  t.engine.KW = s.engine.KW ∧ t.engine.NK = s.engine.NK ∧ t.engine.KV = s.engine.KV

theorem keepsKey_afterReject (code : RejectCode) (s : State) : KeepsKey s (afterReject code s) := ⟨rfl, rfl, rfl⟩

/-- The frame of a command other than `LDKEY`, at the key (10_state.md R36). -/
theorem exec_keepsKey {i : Instr} (notLdkey : ∀ nk q, i ≠ .ldkey nk q) (s : State) :
    ∃ t, exec i s = .next t ∧ KeepsKey s t := by
  obtain ⟨_, t, e, -, -, -, -, keyWritten, validWritten, -⟩ := commandsTouchOnlyTheirState i s
  have noLoad : ¬ ∃ nk q, i = .ldkey nk q := fun ⟨nk, q, isLdkey⟩ => notLdkey nk q isLdkey
  refine ⟨t, e, ?_, ?_, ?_⟩
  · exact by_contra fun changed => noLoad (keyWritten (.inl changed))
  · exact by_contra fun changed => noLoad (keyWritten (.inr changed))
  · exact by_contra fun changed => noLoad (validWritten changed).1

/-- A command word without the opcode of `LDKEY` does not decode to it. -/
theorem ne_ldkey_of_decode {c : Command} {i : Instr} (d : decode c = .ok i) (op : opField c.cmd ≠ 0x40#8)
    (nk : Byte) (q : List Byte) : i ≠ .ldkey nk q := by
  rintro rfl
  exact op (by rw [← opField_encodeWord_of_decode d]; simp [encodeWord])

/-- Settles O32: idle, a rejection by the decoder, or the meaning of a command that is not `LDKEY`. -/
theorem theKeyPersists : Obligations.TheKeyPersists := by
  intro s notReset notLdkey
  change ∃ t, step s = .next t ∧ KeepsKey s t
  rcases step_cases s with ⟨-, e⟩ | ⟨rest, event, -⟩ | ⟨c, s', rfl, -⟩
  · exact ⟨s, e, rfl, rfl, rfl⟩
  · exact absurd event (notReset rest)
  · cases d : decode c with
    | error code => exact ⟨_, step_issued_of_decode_error d s', keepsKey_afterReject code s'⟩
    | ok i =>
      rw [step_issued_of_decode_ok d]
      exact exec_keepsKey (ne_ldkey_of_decode d (notLdkey c s'.input rfl)) s'

/-! ### The reset event (70_reset_and_hazards.md R261) -/

/-- With the flags, `NK` and `ERR` 0, all of `STATUS` is 0, whatever the stores hold. -/
theorem status_eq_zero {e : EngineState} (hSV : e.SV = false) (hKV : e.KV = false) (hWV : e.WV = false)
    (hNK : e.NK = .noKey) (hERR : e.ERR = .ok) : status e = 0 := by
  rw [status, hSV, hKV, hWV, hNK, hERR]
  rfl

/-- Settles O33, for the reset event and for `State.reset`. -/
theorem resetClearsTheFlags : Obligations.ResetClearsTheFlags := by
  refine ⟨fun s rest event => ⟨_, step_reset event, rfl, rfl, rfl, rfl, rfl, ?_, ?_, rfl, rfl⟩,
    rfl, rfl, rfl, rfl, rfl, ?_⟩
  · exact status_eq_zero rfl rfl rfl rfl rfl
  · exact engineInv_resetEngine _
  · exact status_eq_zero rfl rfl rfl rfl rfl

end Sys2Proof.Machine
end
